-- ==== Sys2Proof/Word.lean ====
section
/-! DEFINITION. The word types of FBS: bytes, 16-bit register values, register addresses, bus addresses (R8, R10). -/

namespace Sys2Proof

/-- A byte, 0x00..0xFF (R10). -/
abbrev Byte := BitVec 8

/-- A 16-bit value, 0x0000..0xFFFF (R10): a register, a field, a command word. -/
abbrev Word := BitVec 16

/-- A 5-bit word address of the host register space (R20(a), R50(a)). -/
abbrev RegAddr := BitVec 5

/-- A 7-bit bus address (R8, R50(d)). -/
abbrev BusAddr := BitVec 7

end Sys2Proof
end

