-- ==== Sys2Proof/Syntax.lean ====
section
/-! DEFINITION. The three commands of FBS, one constructor per row of spec/opcode_table.json (R71). -/

namespace Sys2Proof

/-- The commands a host can write to CMD (R71). None has an operand (R72). -/
inductive Instr where
  /-- ATTACH_BUS, OP 0x01: bind the transaction transport after a probe (R100). -/
  | attachBus
  /-- ATTACH_STREAM, OP 0x02: bind the byte-stream transport (R104). -/
  | attachStream
  /-- DECODE, OP 0x03: acquire, validate and commit one frame (R120). -/
  | decode
  deriving DecidableEq, Repr

end Sys2Proof
end

