-- ==== Sys2Proof/Machine/Env.lean ====
section
/-! DEFINITION. What the agents around FBS are made of: host accesses and host program lines (R17, R55), the bus
target's answers (R102, R124), and the moves of all agents as data (R9). -/

namespace Sys2Proof.Machine

/-- The BusTarget's answer: Ack or Nack to a probe (R102), Ok with exactly 32 bytes or Fail to a read (R124). -/
inductive BusAnswer where
  | ack
  | nack
  | data (d : Vector Byte 32)
  | fail
  deriving DecidableEq, Repr

/-- One access at the host register port (R55). `width` is in bits: 16 is the only width the port has (R54).
`value` is the written value, and 0 in the listing of a read (R83). -/
structure HostAccess where
  width : Nat
  write : Bool
  addr  : RegAddr
  value : Word
  deriving DecidableEq, Repr

/-- The condition of a host program's `if <condition on the last value read> goto L` (R17): the bits of the value that
`mask` selects are compared with `value`; the condition is that they are equal (`equal` true) or that they differ. -/
structure HostCond where
  mask  : Word
  value : Word
  equal : Bool
  deriving DecidableEq, Repr

/-- One line of a host program (R17). A label is a line number, counted from 0. -/
inductive HostLine where
  | access (h : HostAccess)
  | ifGoto (c : HostCond) (line : Nat)
  deriving DecidableEq, Repr

/-- One move of one agent, or an input that overrides them (R9, R61, R207). -/
inductive Event where
  /-- The Host takes its next program line (R17, R55). -/
  | host
  /-- The Engine takes its next micro-step (R30). -/
  | engine
  /-- The StreamSource appends a byte (R136). -/
  | append (b : Byte)
  /-- The StreamSource ends a blocking read short (R136). -/
  | endRead
  /-- The BusTarget answers the outstanding request (R102, R124). -/
  | busAnswer (r : BusAnswer)
  /-- The reset input is asserted (R230). -/
  | reset
  /-- An agent other than the Engine removes bytes from the receive queue (R243). -/
  | foreignPop
  deriving DecidableEq, Repr, Inhabited

end Sys2Proof.Machine
end

