-- ==== Sys2Proof/Config.lean ====
section
/-! DEFINITION. What is fixed for a machine: the constants of R7, the open parameters of R8, and the free value from which
moves that nothing else decides are drawn. -/

namespace Sys2Proof

/-- FRAME_LEN: a frame and the buffer are 32 bytes (R7). -/
def Config.frameLen : Nat := 32

/-- HDR0, the header marker the synchronizer scans for (R7, R131). -/
def Config.hdr0 : Byte := 0x42

/-- HDR1, the second header byte (R7). -/
def Config.hdr1 : Byte := 0x4D

/-- How many bytes are summed: bytes SUM_FIRST = 0 to SUM_LAST = 29 (R7). -/
def Config.sumLen : Nat := 30

/-- FIELD0_OFFSET: field k is bytes 2+2k and 3+2k (R7). -/
def Config.field0Offset : Nat := 2

/-- SCAN_BOUND: at most 32 bytes are discarded by one DECODE (R7, R133). -/
def Config.scanBound : Nat := 32

/-- BUS_READ_LEN: one bus read is 32 bytes (R7). -/
def Config.busReadLen : Nat := 32

/-- SRA_RESET, the reset value of CONFIG.SRA: 0 in this spec (R8, R25). -/
def Config.sraReset : Bool := false

/-- BUS_ADDR, the 7-bit bus address: OPEN (R8, D25), so it has no value here. DESIGN CHOICE (log entry 6), safe: no claim
can depend on 0x12 or on any other value. -/
opaque Config.busAddr : BusAddr

/-- The move that comes when the agenda is empty: a free value, one for each number of draws taken so far. The spec gives
no rule for which agent moves next (R61, R207, D2), what a stream delivers (R136) or what the bus answers (R102, R124).
DESIGN CHOICE (log entry 1), safe. -/
opaque Config.draw : Nat → Machine.Event

end Sys2Proof
end

