-- ==== Sys2Proof/WellFormed.lean ====
section
/-! DEFINITION. Which syntax is well formed: command words (R70, R73), host accesses (R54, R83) and host programs (R17).
The commands themselves have no operand (R72), so every `Instr` is well formed. -/

namespace Sys2Proof

/-- Every command is well formed: none has a field that could be out of range (R72). -/
def Instr.wf (i : Instr) : Bool :=
  match i with
  | .attachBus => true
  | .attachStream => true
  | .decode => true

/-- A command word that is not reserved: RSV = 0x00 and OP one of 0x01, 0x02, 0x03 (R70, R73). -/
def Word.isCommand (w : Word) : Bool :=
  w.extractLsb' 8 8 == 0#8 &&
    (w.extractLsb' 0 8 == 0x01#8 || w.extractLsb' 0 8 == 0x02#8 || w.extractLsb' 0 8 == 0x03#8)

namespace Machine

/-- A host access the port has: 16 bits wide (R54), and listed with value 0 if it is a read (R83). -/
def HostAccess.wf (h : HostAccess) : Bool :=
  h.width == 16 && (h.write || h.value == 0)

/-- A line is well formed in a program of `len` lines when its access is, or its label is a line or the program's end (R17). -/
def HostLine.wf (len : Nat) (l : HostLine) : Bool :=
  match l with
  | .access h => h.wf
  | .ifGoto _ line => decide (line ≤ len)

/-- A host program is well formed when each of its lines is (R17). -/
def hostProgramWf (p : List HostLine) : Bool :=
  p.all (HostLine.wf p.length)

end Machine
end Sys2Proof
end

