-- ==== Sys2Proof/Decode.lean ====
section
/-! DEFINITION. Reading and writing encodings: command words (R70-R74), mnemonics (R82), host access listings (R83),
and the register map's addresses (R22). -/

namespace Sys2Proof

/-- Why a word is no command (R73). A reserved word is ignored by an idle FBS: this is a reason, not a trap. -/
inductive DecodeError where
  /-- RSV, bits 15:8, is not 0x00. -/
  | reservedBits
  /-- OP, bits 7:0, is none of 0x01, 0x02, 0x03. -/
  | reservedOpcode
  deriving DecidableEq, Repr

/-- The command of a word, all 16 bits compared (R70, R71, R73). -/
def decodeWord (w : Word) : Except DecodeError Instr :=
  if w.extractLsb' 8 8 ≠ 0x00#8 then .error .reservedBits
  else if w.extractLsb' 0 8 = 0x01#8 then .ok .attachBus
  else if w.extractLsb' 0 8 = 0x02#8 then .ok .attachStream
  else if w.extractLsb' 0 8 = 0x03#8 then .ok .decode
  else .error .reservedOpcode

/-- OP, the operation code of a command (R71). -/
def Instr.opcode (i : Instr) : Byte :=
  match i with
  | .attachBus => 0x01
  | .attachStream => 0x02
  | .decode => 0x03

/-- The command word: RSV = 0x00 above OP (R70). -/
def encode (i : Instr) : Word :=
  (0x00#8 : Byte) ++ i.opcode

/-- The bare mnemonic of a command (R82). -/
def Instr.mnemonic (i : Instr) : String :=
  match i with
  | .attachBus => "ATTACH_BUS"
  | .attachStream => "ATTACH_STREAM"
  | .decode => "DECODE"

/-- The command a bare mnemonic names (R82). -/
def assemble (m : String) : Option Instr :=
  if m = Instr.attachBus.mnemonic then some .attachBus
  else if m = Instr.attachStream.mnemonic then some .attachStream
  else if m = Instr.decode.mnemonic then some .decode
  else none

/-- The 16-bit word whose low `nbits` bits are those of `w`, every other bit 0: how spec/opcode_table.json numbers the
bits of a row (log entry 14). -/
def tableWord (nbits w : Nat) : Word :=
  BitVec.ofNat 16 (w % 2 ^ nbits)

/-- The command that the decoder reads from a word of the opcode table. -/
def decodeTableWord (nbits w : Nat) : Option Instr :=
  match decodeWord (tableWord nbits w) with
  | .ok i => some i
  | .error _ => none

namespace Machine

/-- The 22-bit listing of a host access: bit 21 write, bits 20:16 address, bits 15:0 the written value, or 0 for a
read (R83). The width is no part of the listing, which is for 16-bit accesses. -/
def encodeAccess (h : HostAccess) : BitVec 22 :=
  BitVec.ofBool h.write ++ h.addr ++ (if h.write then h.value else 0#16)

/-- The host access of a 22-bit listing word (R83). A read listed with a value other than 0 is no listing word
(log entry 16). -/
def decodeAccess (w : BitVec 22) : Option HostAccess :=
  let h : HostAccess :=
    { width := 16, write := w.getLsbD 21, addr := w.extractLsb' 16 5, value := w.extractLsb' 0 16 }
  if h.wf then some h else none

/-- What stands at a word address of the host register space (R22). -/
inductive HostReg where
  | cmd
  | status
  | config
  | field (k : Fin 15)
  | reserved
  deriving DecidableEq, Repr

/-- The host register map (R22): 0x00 CMD, 0x01 STATUS, 0x02 CONFIG, 0x10+k FIELDk for k = 0..14, all else reserved. -/
def regAt (a : RegAddr) : HostReg :=
  if a = 0x00#5 then .cmd
  else if a = 0x01#5 then .status
  else if a = 0x02#5 then .config
  else if h : 16 ≤ a.toNat ∧ a.toNat ≤ 30 then .field ⟨a.toNat - 16, by omega⟩
  else .reserved

/-- CMD's address (R22). -/
def cmdAddr : RegAddr := 0x00

/-- STATUS's address (R22). -/
def statusAddr : RegAddr := 0x01

/-- CONFIG's address (R22). -/
def configAddr : RegAddr := 0x02

/-- FIELDk's address, 0x10+k (R22). -/
def fieldAddr (k : Fin 15) : RegAddr := BitVec.ofNat 5 (16 + k.val)

/-- The line `wr REG, imm16` (R17). -/
def hostWr (a : RegAddr) (v : Word) : HostLine :=
  .access { width := 16, write := true, addr := a, value := v }

/-- The line `rd REG` (R17). -/
def hostRd (a : RegAddr) : HostLine :=
  .access { width := 16, write := false, addr := a, value := 0 }

/-- A mnemonic assembles to one host write of the command's word to CMD (R82). -/
def issue (i : Instr) : HostLine :=
  hostWr cmdAddr (encode i)

/-- The two lines of `wait_done`, placed at line `at_` of a program: read STATUS; while bit 5 (DONE) is 0, read it
again (R84). -/
def waitDone (at_ : Nat) : List HostLine :=
  [hostRd statusAddr, .ifGoto { mask := 0x0020, value := 0x0000, equal := true } at_]

/-- The pseudo-instructions `attach_bus`, `attach_stream` and `decode`, placed at line `at_`: the command, then
`wait_done` (R84). -/
def issueAndWait (i : Instr) (at_ : Nat) : List HostLine :=
  issue i :: waitDone (at_ + 1)

end Machine
end Sys2Proof
end

