-- ==== Sys2Proof/Machine/State.lean ====
section
/-! DEFINITION. The state of FBS and its agents as plain data (R20-R37), the reasons a step can stop (R243), and the state
after reset (R37). -/

namespace Sys2Proof.Machine

/-- The result codes of STATUS.RESULT (R75). The reserved codes 0x7..0xE have no constructor: no rule produces one (R76). -/
inductive ResultCode where
  | ok
  | deviceNotFound
  | transportError
  | noData
  | framingError
  | invalidHeader
  | checksumMismatch
  | none
  deriving DecidableEq, Repr

/-- The transport binding (R27). -/
inductive Transport where
  | unbound
  | bus
  | stream
  deriving DecidableEq, Repr

/-- The Engine's control state (R30). -/
inductive Phase where
  | idle
  | dispatch
  | probeWait
  | busWait
  | scan
  | fill
  | check
  deriving DecidableEq, Repr

/-- The bus request register (R29). -/
inductive BusReq where
  | none
  | probe (a : BusAddr)
  | read (a : BusAddr) (len : Nat)
  deriving DecidableEq, Repr

/-- A Reading: fifteen 16-bit values in wire order (R15, R26). -/
abbrev Reading := Vector Word 15

/-- The frame buffer as memory: (index, byte) pairs, indices strictly rising, no byte 0x00 listed. An index in 0..31
that is not listed holds 0x00, the spec's reset value (R28, R37; log entry 7). -/
abbrev Memory := List Host.Cell

/-- Why a step stops. The first three are the model faults of R243: marks that a run left what the spec gives a meaning,
each of them safe (a claim must show that its host and environment never cause it). -/
inductive Fault where
  /-- FAULT(CmdWhileBusy): raised by a write to CMD, or by another command's move, while BUSY = 1 (R81, R240, I1). Safe. -/
  | cmdWhileBusy
  /-- FAULT(HostAccessWidth): raised by a host access that is not 16 bits wide (R54, R243, I2). Safe. -/
  | hostAccessWidth
  /-- FAULT(ForeignStreamConsumer): raised when an agent other than the Engine removes queued bytes (R36, R243, I3). Safe. -/
  | foreignStreamConsumer
  /-- Raised by a FILL step whose index n is outside the buffer's 0..31 (R50(b)), in states no run reaches (log entry 7). Safe. -/
  | bufferIndex
  deriving DecidableEq, Repr

/-- Why a command has no meaning in this model: only that it is not modelled. No arm of `exec` answers so. -/
inductive Refusal where
  /-- Raised by no meaning: the name that the dispatch keeps for a command without one. Safe. -/
  | notModelled (mnemonic : String)
  deriving DecidableEq, Repr

/-- The machine: FBS's registers and internal state, the queue and answer of its transports, the host's program, and the
agenda of moves. -/
structure State where
  /-- STATUS.RESULT (R24). -/
  result : ResultCode
  /-- STATUS.BUSY (R24). -/
  busy : Bool
  /-- STATUS.DONE (R24), which is also the done_o output (R206). -/
  doneFlag : Bool
  /-- STATUS.VALID (R24). -/
  valid : Bool
  /-- STATUS.TRANSPORT, the binding (R24, R27). -/
  transport : Transport
  /-- CONFIG.SRA (R25). -/
  sra : Bool
  /-- FIELD0..FIELD14 (R26). -/
  fields : Reading
  /-- The frame buffer (R28). -/
  buf : Memory
  /-- The bus request register (R29). -/
  busReq : BusReq
  /-- The answer the BusTarget has given to the request in `busReq`, if any (R102, R124). -/
  busAns : Option BusAnswer
  /-- The phase register (R30). -/
  phase : Phase
  /-- The operation in flight, meaningful while BUSY = 1 (R31). -/
  op : Instr
  /-- CONFIG.SRA as latched when the current DECODE was accepted (R31). -/
  sraL : Bool
  /-- The discard counter (R32). -/
  disc : Nat
  /-- The fill counter (R33). -/
  n : Nat
  /-- The receive queue, head first; the StreamSource's (R36). -/
  rxq : List Byte
  /-- The Host's program (R17). -/
  hostProg : List HostLine
  /-- The program line the Host takes next (R17). -/
  hostPc : Nat
  /-- The last value the Host read (R17). -/
  hostLast : Word
  /-- The model's own: moves given in advance, the next one first (log entry 1). -/
  agenda : List Event
  /-- The model's own: how many moves have been drawn from `Config.draw` (log entry 1). -/
  draws : Nat
  deriving DecidableEq, Repr

/-- What one step or one meaning answers. -/
abbrev Outcome := Host.Outcome State Fault Refusal

/-- The machine after reset, every value of R37. DESIGN CHOICE, unsafe, where the spec gives none: `op` and `sraL`
(log entry 4); `rxq`, the Host's program and the agenda, which FBS's reset does not set (log entry 5). -/
def State.reset : State where
  result := .none
  busy := false
  doneFlag := false
  valid := false
  transport := .unbound
  sra := Config.sraReset
  fields := Vector.replicate 15 0x0000#16
  buf := []
  busReq := .none
  busAns := Option.none
  phase := .idle
  op := .attachBus
  sraL := false
  disc := 0
  n := 0
  rxq := []
  hostProg := []
  hostPc := 0
  hostLast := 0x0000
  agenda := []
  draws := 0

end Sys2Proof.Machine
end

