-- ==== Sys2Proof/Machine/Ops.lean ====
section
/-! DEFINITION. The shared operations: the frame buffer as memory (R28, R50), the primitives of R12 on the queue and the
bus, acceptance of a command (R80), and completion (R35), which is FBS's one exit in place of traps (R200, R204). -/

namespace Sys2Proof.Machine

/-- MemRead(i, 1): the byte at an index; an index that is not listed holds 0x00 (R12, R28, R37). -/
def Memory.read (m : Memory) (i : Nat) : Byte :=
  match m with
  | [] => 0x00
  | (j, b) :: rest => if j = i then b else Memory.read rest i

/-- MemWrite(i, 1, v), in canonical form: the entry of index i is replaced, or removed if v is 0x00 (R12, R28). -/
def Memory.write (m : Memory) (i : Nat) (v : Byte) : Memory :=
  match m with
  | [] => if v = 0x00 then [] else [(i, v)]
  | (j, b) :: rest =>
    if i < j then (if v = 0x00 then (j, b) :: rest else (i, v) :: (j, b) :: rest)
    else if i = j then (if v = 0x00 then rest else (i, v) :: rest)
    else (j, b) :: Memory.write rest i v

/-- MemWrite of consecutive bytes from index i on (R123). -/
def Memory.writeBytes (m : Memory) (i : Nat) (bs : List Byte) : Memory :=
  match bs with
  | [] => m
  | b :: rest => Memory.writeBytes (m.write i b) (i + 1) rest

/-- The canonical form from index `lo` on: indices at least `lo`, strictly rising, inside the buffer, and no byte 0x00. -/
def Memory.wfFrom (lo : Nat) (m : Memory) : Bool :=
  match m with
  | [] => true
  | (i, b) :: rest => decide (lo ≤ i) && decide (i < Config.frameLen) && b != 0x00 && Memory.wfFrom (i + 1) rest

/-- The canonical form of the frame buffer. -/
def Memory.wf (m : Memory) : Bool :=
  m.wfFrom 0

/-- The buffer with 0x00 in every byte (R28, R80). -/
def Memory.cleared : Memory := []

/-- StreamCount(): how many bytes are queued (R12). -/
def streamCount (s : State) : Nat :=
  s.rxq.length

/-- StreamPeek(): the head byte, not consumed; none when StreamCount() = 0, where the spec does not define it (R12). -/
def streamPeek (s : State) : Option Byte :=
  s.rxq.head?

/-- The effect of StreamPop() on the queue; the byte popped is the one StreamPeek() gives (R12, R62). -/
def streamPop (s : State) : State :=
  { s with rxq := s.rxq.tail }

/-- BusProbe(a): a probe of bus address a becomes the outstanding request (R12, R101). -/
def busProbe (a : BusAddr) (s : State) : State :=
  { s with busReq := .probe a, busAns := Option.none }

/-- BusRead(a, len): a read of len bytes becomes the outstanding request (R12, R121). -/
def busRead (a : BusAddr) (len : Nat) (s : State) : State :=
  { s with busReq := .read a len, busAns := Option.none }

/-- phase <- p (R12, R30). -/
def toPhase (p : Phase) (s : State) : State :=
  { s with phase := p }

/-- TRANSPORT <- t: the binding of a successful attach (R101, R105). -/
def bind (t : Transport) (s : State) : State :=
  { s with transport := t }

/-- What the acceptance of every command sets (R80). -/
def accept (i : Instr) (s : State) : State :=
  { s with op := i, result := .none, doneFlag := false, busy := true, phase := .dispatch }

/-- What the acceptance of a DECODE sets besides: VALID cleared, CONFIG.SRA latched, the buffer and the counters
cleared (R80). -/
def startDecode (s : State) : State :=
  { s with valid := false, sraL := s.sra, buf := Memory.cleared, disc := 0, n := 0 }

/-- Fifteen fields of 0x0000: what a failed DECODE leaves (R35). -/
def noReading : Reading :=
  Vector.replicate 15 0x0000#16

/-- What completion does to the FIELD registers (R35): a DECODE commits the Reading when the code is OK and clears all
fifteen otherwise; an attach leaves them. -/
def fieldsAtFinish (code : ResultCode) (f : Reading) (s : State) : Reading :=
  if s.op = .decode then (if code = .ok then f else noReading) else s.fields

/-- What completion does to VALID (R35). -/
def validAtFinish (code : ResultCode) (s : State) : Bool :=
  if s.op = .decode then decide (code = .ok) else s.valid

/-- finish(code, f): the operation in flight completes, in one atomic update (R35). `f` is read only for a DECODE that
completes with OK. -/
def finish (code : ResultCode) (f : Reading) (s : State) : State :=
  { s with
    result := code
    fields := fieldsAtFinish code f s
    valid := validAtFinish code s
    busReq := .none
    busAns := Option.none
    busy := false
    doneFlag := true
    phase := .idle }

/-- finish(code) without a Reading (R35). -/
def finishWith (code : ResultCode) (s : State) : State :=
  finish code noReading s

/-- FBS's own next move for command `i`: an idle FBS accepts it (R80); while `i` is the operation in flight the Engine
takes the micro-step of its phase (R30); while another command is in flight there is no meaning (R81). DESIGN CHOICE (log
entry 3), safe. -/
def commandMove (i : Instr) (accepted : State → State) (engine : State → Outcome) (s : State) : Outcome :=
  if s.busy = false then .next (accepted s)
  else if s.op = i then engine s
  else .fault .cmdWhileBusy

end Sys2Proof.Machine
end

