-- ==== Sys2Proof/Machine/Acquisition.lean ====
section
/-! DEFINITION. Frame acquisition of DECODE: dispatch (R121, R122), the bus path (R123), and the stream path's
synchronizer and fill (R130-R138). -/

namespace Sys2Proof.Machine

/-- DECODE in DISPATCH: the binding chooses the path (R121, R122, R130). -/
def decodeDispatch (s : State) : State :=
  match s.transport with
  | .unbound => finishWith .transportError s
  | .bus => toPhase .busWait (busRead Config.busAddr Config.busReadLen s)
  | .stream => if streamCount s = 0 then finishWith .noData s else toPhase .scan s

/-- The buffer filled with the 32 bytes of a read's answer, byte i at index i (R52, R123). -/
def loadAnswer (d : Vector Byte 32) (s : State) : State :=
  { s with buf := s.buf.writeBytes 0 d.toList, n := Config.busReadLen }

/-- DECODE in BUS_WAIT: the answer is taken whole, or the read failed; without an answer the Engine has no step (R123,
R124; log entry 2). -/
def decodeBusAnswered (s : State) : State :=
  match s.busAns with
  | some (.data d) => toPhase .check (loadAnswer d s)
  | some .fail => finishWith .transportError s
  | some .ack => s
  | some .nack => s
  | Option.none => s

/-- exhausted(): the queue is empty during SCAN. FramingError by default, FILL on the degraded path (R134). -/
def exhausted (s : State) : State :=
  if s.sraL = false then finishWith .framingError s else toPhase .fill s

/-- One byte is discarded and counted (R132). -/
def discardHead (s : State) : State :=
  { streamPop s with disc := s.disc + 1 }

/-- DECODE in SCAN: empty queue, marker, bound, in that order, else discard one byte (R132, R133). -/
def decodeScan (s : State) : State :=
  match streamPeek s with
  | Option.none => exhausted s
  | some b =>
    if b = Config.hdr0 then toPhase .fill s
    else if s.disc = Config.scanBound then finishWith .framingError s
    else discardHead s

/-- The popped head byte `b` stored at index n, and n counted (R135). -/
def storeHead (b : Byte) (s : State) : State :=
  { streamPop s with buf := s.buf.write s.n b, n := s.n + 1 }

/-- CHECK once 32 bytes are stored, else FILL again (R135). -/
def fillNext (s : State) : State :=
  if s.n = Config.frameLen then toPhase .check s else s

/-- DECODE in FILL: one byte from the queue to the buffer; while the queue is empty the fill waits (R135; log entry 2). An
index outside the buffer does not exist (R50(b); log entry 7). -/
def decodeFill (s : State) : Outcome :=
  match streamPeek s with
  | Option.none => .next s
  | some b => if s.n < Config.frameLen then .next (fillNext (storeHead b s)) else .fault .bufferIndex

/-- short_transfer(): a fill ends with fewer than 32 bytes. TransportError by default, CHECK on the degraded path, where
the bytes not stored are 0x00 (R137, R138). -/
def shortTransfer (s : State) : State :=
  if s.sraL = false then finishWith .transportError s else toPhase .check s

end Sys2Proof.Machine
end

