-- ==== Sys2Proof/Machine/Operands.lean ====
section
/-! DEFINITION. The only operand assembly of FBS, on frame bytes (R72): big-endian pairs (R11, R51, R166), the header
validator (R161), the checksum accumulator (R163, R164) and the unpacker (R166). -/

namespace Sys2Proof.Machine

/-- `hi ++ lo`, the first byte of a pair in bits 15:8 (R11, R51, R166). -/
def bigEndian (hi lo : Byte) : Word :=
  hi ++ lo

/-- HeaderOK(buf): the first two bytes are exactly 0x42 and 0x4D (R161). -/
def headerOK (m : Memory) : Bool :=
  m.read 0 == Config.hdr0 && m.read 1 == Config.hdr1

/-- One addition of the accumulator: the byte zero-extended, the sum modulo 2^16 (R163, R164). -/
def accumulate (acc : Word) (b : Byte) : Word :=
  acc + b.setWidth 16

/-- The accumulator run over a list of bytes from 0 (R163). -/
def sumBytes (bs : List Byte) : Word :=
  bs.foldl accumulate 0x0000#16

/-- Checksum(buf): the sum of bytes 0..29 (R163). -/
def checksum (m : Memory) : Word :=
  sumBytes ((List.range Config.sumLen).map m.read)

/-- Field k of the frame in the buffer: bytes 2+2k and 3+2k (R53, R54, R166). -/
def fieldOf (m : Memory) (k : Nat) : Word :=
  bigEndian (m.read (Config.field0Offset + 2 * k)) (m.read (Config.field0Offset + 1 + 2 * k))

/-- Unpack(buf): the fifteen fields in wire order (R166, R170). -/
def unpack (m : Memory) : Reading :=
  Vector.ofFn fun k => fieldOf m k.val

/-- The checksum field of the frame, field 14, bytes 30 and 31 (R7, R167(c), R168). -/
def checksumField (m : Memory) : Word :=
  (unpack m)[14]

end Sys2Proof.Machine
end

