-- ==== Sys2Proof/Machine/Validation.lean ====
section
/-! DEFINITION. Frame validation and commit of DECODE: the CHECK step (R160-R176). -/

namespace Sys2Proof.Machine

/-- The result of validating a buffer, header before checksum (R160, R162, R168, R169). -/
def verdict (m : Memory) : ResultCode :=
  if headerOK m = false then .invalidHeader
  else if checksum m ≠ checksumField m then .checksumMismatch
  else .ok

/-- DECODE in CHECK: the DECODE completes with the verdict on the buffer, and with its fields if that is OK (R160, R176). -/
def decodeCheck (s : State) : State :=
  finish (verdict s.buf) (unpack s.buf) s

end Sys2Proof.Machine
end

