-- ==== Sys2Proof/Machine/FrameDecode.lean ====
section
/-! DEFINITION. The meaning of DECODE (R120): acceptance, dispatch, acquisition and validation. -/

namespace Sys2Proof.Machine

/-- The Engine's micro-steps of DECODE, by phase (R121, R123, R132, R135, R160); a phase for which they give none has no
step (log entry 2). -/
def decodeEngine (s : State) : Outcome :=
  match s.phase with
  | .dispatch => .next (decodeDispatch s)
  | .busWait => .next (decodeBusAnswered s)
  | .scan => .next (decodeScan s)
  | .fill => decodeFill s
  | .check => .next (decodeCheck s)
  | .idle => .next s
  | .probeWait => .next s

/-- DECODE: its acceptance (R80) and its Engine steps (R120). -/
def execDecode (s : State) : Outcome :=
  commandMove .decode (fun s => accept .decode (startDecode s)) decodeEngine s

end Sys2Proof.Machine
end

