-- ==== Sys2Proof/Machine/TransportSelect.lean ====
section
/-! DEFINITION. Transport selection: the meanings of ATTACH_BUS (R100-R103) and ATTACH_STREAM (R104-R106). -/

namespace Sys2Proof.Machine

/-- ATTACH_BUS in DISPATCH: probe BUS_ADDR and wait (R101). -/
def attachBusDispatch (s : State) : State :=
  toPhase .probeWait (busProbe Config.busAddr s)

/-- ATTACH_BUS in PROBE_WAIT: on Ack the bus is bound, on Nack the binding stays; without an answer the Engine has no
step and the state stays as it is (R101, R102, R103; log entry 2). -/
def attachBusProbed (s : State) : State :=
  match s.busAns with
  | some .ack => finishWith .ok (bind .bus s)
  | some .nack => finishWith .deviceNotFound s
  | some (.data _) => s
  | some .fail => s
  | Option.none => s

/-- The Engine's micro-steps of ATTACH_BUS; a phase for which R101 gives none has no step (log entry 2). -/
def attachBusEngine (s : State) : Outcome :=
  match s.phase with
  | .dispatch => .next (attachBusDispatch s)
  | .probeWait => .next (attachBusProbed s)
  | .idle => .next s
  | .busWait => .next s
  | .scan => .next s
  | .fill => .next s
  | .check => .next s

/-- ATTACH_BUS: its acceptance (R80) and its Engine steps (R101). -/
def execAttachBus (s : State) : Outcome :=
  commandMove .attachBus (accept .attachBus) attachBusEngine s

/-- ATTACH_STREAM in DISPATCH: the stream is bound, always with OK (R104, R105). -/
def attachStreamDispatch (s : State) : State :=
  finishWith .ok (bind .stream s)

/-- The Engine's one micro-step of ATTACH_STREAM; a phase for which R105 gives none has no step (log entry 2). -/
def attachStreamEngine (s : State) : Outcome :=
  match s.phase with
  | .dispatch => .next (attachStreamDispatch s)
  | .idle => .next s
  | .probeWait => .next s
  | .busWait => .next s
  | .scan => .next s
  | .fill => .next s
  | .check => .next s

/-- ATTACH_STREAM: its acceptance (R80) and its Engine step (R105). -/
def execAttachStream (s : State) : Outcome :=
  commandMove .attachStream (accept .attachStream) attachStreamEngine s

end Sys2Proof.Machine
end

