-- ==== Sys2Proof/Machine/Dispatch.lean ====
section
/-! DEFINITION. One arm per command: FBS's next move on behalf of it (R71; log entry 3). -/

namespace Sys2Proof.Machine

def exec (i : Instr) (s : State) : Host.Outcome State Fault Refusal :=
  match i with
  | .attachBus => Sys2Proof.Machine.execAttachBus s
  | .attachStream => Sys2Proof.Machine.execAttachStream s
  | .decode => Sys2Proof.Machine.execDecode s

end Sys2Proof.Machine
end

