-- ==== Sys2Proof/Machine/Flags.lean ====
section
/-! DEFINITION. The bit layouts of STATUS and CONFIG: result codes (R75), the binding's two bits and the flags of the status
word (R24), the configuration word (R25), and the done_o output (R206). -/

namespace Sys2Proof.Machine

/-- The 4-bit code of a result (R75). -/
def ResultCode.code (r : ResultCode) : BitVec 4 :=
  match r with
  | .ok => 0x0
  | .deviceNotFound => 0x1
  | .transportError => 0x2
  | .noData => 0x3
  | .framingError => 0x4
  | .invalidHeader => 0x5
  | .checksumMismatch => 0x6
  | .none => 0xF

/-- The result a 4-bit code stands for; 0x7..0xE are reserved and stand for none (R75, R76). -/
def resultOfCode (c : BitVec 4) : Option ResultCode :=
  if c = 0x0#4 then some .ok
  else if c = 0x1#4 then some .deviceNotFound
  else if c = 0x2#4 then some .transportError
  else if c = 0x3#4 then some .noData
  else if c = 0x4#4 then some .framingError
  else if c = 0x5#4 then some .invalidHeader
  else if c = 0x6#4 then some .checksumMismatch
  else if c = 0xF#4 then some .none
  else Option.none

/-- The TRANSPORT bits of a binding: 0b11 is never produced (R24). -/
def Transport.bits (t : Transport) : BitVec 2 :=
  match t with
  | .unbound => 0b00
  | .bus => 0b01
  | .stream => 0b10

/-- The STATUS word: RESULT in bits 3:0, BUSY 4, DONE 5, VALID 6, TRANSPORT 9:8, every other bit 0 (R24). -/
def statusWord (s : State) : Word :=
  (0#6 : BitVec 6) ++ s.transport.bits ++ (0#1 : BitVec 1) ++ BitVec.ofBool s.valid ++
    BitVec.ofBool s.doneFlag ++ BitVec.ofBool s.busy ++ s.result.code

/-- The CONFIG word: SRA in bit 0, every other bit 0 (R25, R55). -/
def configWord (s : State) : Word :=
  (BitVec.ofBool s.sra).setWidth 16

/-- CONFIG.SRA as a write of `w` sets it: bit 0, the other bits ignored (R25). -/
def sraOf (w : Word) : Bool :=
  w.getLsbD 0

/-- The done_o output: its level is STATUS.DONE (R20(d), R206). -/
def doneO (s : State) : Bool :=
  s.doneFlag

end Sys2Proof.Machine
end

