-- ==== Sys2Proof/Machine/Agents.lean ====
section
/-! DEFINITION. What each agent's move does (R9): the Host's accesses and program (R17, R55, R80), the Engine, the
StreamSource (R136), the BusTarget (R102, R124), and reset (R230). -/

namespace Sys2Proof.Machine

/-- HostRead(a): the value at a word address (R55). -/
def hostRead (a : RegAddr) (s : State) : Word :=
  match regAt a with
  | .cmd => 0x0000
  | .status => statusWord s
  | .config => configWord s
  | .field k => s.fields[k]
  | .reserved => 0x0000

/-- CommandWrite(w): a fault while BUSY = 1, nothing for a reserved word, else FBS accepts the command (R73, R80, R81). -/
def commandWrite (w : Word) (s : State) : Outcome :=
  if s.busy = true then .fault .cmdWhileBusy
  else
    match decodeWord w with
    | .ok i => exec i s
    | .error _ => .next s

/-- HostWrite(a, w) (R55). -/
def hostWrite (a : RegAddr) (w : Word) (s : State) : Outcome :=
  match regAt a with
  | .cmd => commandWrite w s
  | .config => .next { s with sra := sraOf w }
  | .status => .next s
  | .field _ => .next s
  | .reserved => .next s

/-- One host access: a width other than 16 is a fault (R54, R243); a read gives the Host its value and changes nothing of
FBS (R56). -/
def hostAccess (h : HostAccess) (s : State) : Outcome :=
  if h.width ≠ 16 then .fault .hostAccessWidth
  else if h.write then hostWrite h.addr h.value s
  else .next { s with hostLast := hostRead h.addr s }

/-- Whether the condition of an `if ... goto` holds of the last value read (R17). -/
def condHolds (c : HostCond) (v : Word) : Bool :=
  ((v &&& c.mask) == (c.value &&& c.mask)) == c.equal

/-- The Host's step: its program's next line (R17, R85). A program past its last line has ended (R247), and the Host has
no step. -/
def hostStep (s : State) : Outcome :=
  match s.hostProg[s.hostPc]? with
  | Option.none => .next s
  | some (.access h) => hostAccess h { s with hostPc := s.hostPc + 1 }
  | some (.ifGoto c line) => .next { s with hostPc := if condHolds c s.hostLast then line else s.hostPc + 1 }

/-- The Engine's step: a move of the operation in flight; an idle Engine has none (R30, R31, R232). -/
def engineStep (s : State) : Outcome :=
  if s.busy = true then exec s.op s else .next s

/-- Append(b): a byte at the queue's tail, at any point (R136). -/
def streamAppend (b : Byte) (s : State) : State :=
  { s with rxq := s.rxq ++ [b] }

/-- EndRead: enabled only in FILL with n < 32 and an empty queue, and then the short transfer (R136, R137). -/
def endRead (s : State) : State :=
  if s.phase = .fill ∧ s.n < Config.frameLen ∧ streamCount s = 0 then shortTransfer s else s

/-- Whether an answer is one to this request: Ack and Nack to a probe (R102), 32 bytes and Fail to a read (R124). -/
def answersReq (r : BusAnswer) (q : BusReq) : Bool :=
  match r, q with
  | .ack, .probe _ => true
  | .nack, .probe _ => true
  | .data _, .read _ _ => true
  | .fail, .read _ _ => true
  | _, _ => false

/-- The BusTarget's step: it answers the outstanding request, which has no answer yet, with an answer of its kind (R29,
R102, R124, R233; log entry 9). -/
def busTarget (r : BusAnswer) (s : State) : State :=
  if s.busAns = Option.none ∧ answersReq r s.busReq = true then { s with busAns := some r } else s

/-- Reset: every piece of FBS's state at its reset value, in any phase; the queue, the Host and what is still to come are
not FBS's and stay (R37, R230, R231). -/
def fbsReset (s : State) : State :=
  { State.reset with
    rxq := s.rxq
    hostProg := s.hostProg
    hostPc := s.hostPc
    hostLast := s.hostLast
    agenda := s.agenda
    draws := s.draws }

/-- Another agent takes queued bytes: a fault (R36, R243). From an empty queue there is nothing to take (log entry 11). -/
def foreignPop (s : State) : Outcome :=
  if streamCount s = 0 then .next s else .fault .foreignStreamConsumer

/-- One move of one agent (R9). -/
def agentStep (e : Event) (s : State) : Outcome :=
  match e with
  | .host => hostStep s
  | .engine => engineStep s
  | .append b => .next (streamAppend b s)
  | .endRead => .next (endRead s)
  | .busAnswer r => .next (busTarget r s)
  | .reset => .next (fbsReset s)
  | .foreignPop => foreignPop s

/-- The move that comes next: the agenda's first, else a draw (log entry 1). -/
def nextEvent (s : State) : Event :=
  match s.agenda with
  | e :: _ => e
  | [] => Config.draw s.draws

/-- The state in which that move is taken: the agenda without it, or one more draw counted (log entry 1). -/
def takeEvent (s : State) : State :=
  match s.agenda with
  | _ :: rest => { s with agenda := rest }
  | [] => { s with draws := s.draws + 1 }

end Sys2Proof.Machine
end

