-- ==== Sys2Proof/Machine/Step.lean ====
section
/-! DEFINITION. One step of the machine: one agent's move (R9, R61), and how a command is placed where the next step
takes it. -/

namespace Sys2Proof.Machine

/-- One step: the next move of the total order of all agents' moves (R61, R207; log entry 1). -/
def step (s : State) : Host.Outcome State Fault Refusal :=
  agentStep (nextEvent s) (takeEvent s)

/-- The state in which the very next step is the Host's write of a command word to CMD: its program is that one line, it
is at it, and the next move is its own (log entry 14). Nothing else changes. -/
def State.withFetchWord (s : State) (nbits w : Nat) : State :=
  { s with
    hostProg := [hostWr cmdAddr (tableWord nbits w)]
    hostPc := 0
    agenda := .host :: s.agenda }

end Sys2Proof.Machine
end

