-- ==== Sys2Proof/Safety.lean ====
section
/-! DEFINITION. The terms claims are stated in: an operation in a phase, runs of the Engine alone, frames on the wire
(R170), and the invariants of the machine. -/

namespace Sys2Proof.Machine

/-- Command `i` is in flight and the Engine is in phase `p` (R30, R31). -/
abbrev Running (i : Instr) (p : Phase) (s : State) : Prop :=
  s.busy = true ∧ s.op = i ∧ s.phase = p

/-- A DECODE is in flight. -/
abbrev Decoding (s : State) : Prop :=
  s.busy = true ∧ s.op = .decode

/-- `k` Engine steps with no other agent's step between them: the closed queue of R141 while nothing waits. -/
def engineRun : Nat → State → Outcome
  | 0, s => .next s
  | k + 1, s =>
    match engineStep s with
    | .next t => engineRun k t
    | .fault f => .fault f
    | .refused r => .refused r

/-- Byte i of a frame as it is sent, byte 0 first (R52). -/
def frameByte (F : List Byte) (i : Nat) : Byte :=
  F.getD i 0x00

/-- The exact sum of the first 30 bytes of a frame, before any reduction modulo 2^16 (R164(d)). -/
def frameSum (F : List Byte) : Nat :=
  ((F.take 30).map BitVec.toNat).sum

/-- The number a pair of bytes stands for, high byte first (R51). -/
def pairValue (hi lo : Byte) : Nat :=
  256 * hi.toNat + lo.toNat

/-- A valid frame: 32 bytes, header 0x42 0x4D, and the pair at 30-31 is the sum of bytes 0..29 modulo 2^16 (R170, R171). -/
abbrev ValidFrame (F : List Byte) : Prop :=
  F.length = 32 ∧ frameByte F 0 = 0x42 ∧ frameByte F 1 = 0x4D ∧
    pairValue (frameByte F 30) (frameByte F 31) = frameSum F % 65536

/-- What a completion with `code` leaves of an attach: FIELD0..14 and VALID stay (R35). -/
def attachCompleted (code : ResultCode) (s : State) : State :=
  { s with
    result := code, busReq := .none, busAns := Option.none, busy := false, doneFlag := true, phase := .idle }

/-- What a completion with an error `code` leaves of a DECODE: fifteen fields of 0x0000 and VALID = 0 (R35). -/
def decodeFailed (code : ResultCode) (s : State) : State :=
  { attachCompleted code s with fields := Vector.replicate 15 0x0000#16, valid := false }

/-- What a completion with OK leaves of a DECODE: the Reading `f` and VALID = 1 (R35, R176). -/
def decodeCommitted (f : Reading) (s : State) : State :=
  { attachCompleted .ok s with fields := f, valid := true }

/-- The exact sum of buffer bytes 0..29, before any reduction modulo 2^16 (R164(d)). -/
def bufferSum (m : Memory) : Nat :=
  ((List.range 30).map fun i => (m.read i).toNat).sum

/-- `f` holds the big-endian pairs of the buffer from offset 2 on (R166, R171). -/
def ReadingOf (m : Memory) (f : Reading) : Prop :=
  ∀ k : Fin 15, (f[k]).toNat = pairValue (m.read (2 + 2 * k.val)) (m.read (3 + 2 * k.val))

/-- The Host and the moves to come are the same. -/
abbrev SameHost (s t : State) : Prop :=
  t.hostProg = s.hostProg ∧ t.hostPc = s.hostPc ∧ t.hostLast = s.hostLast ∧ t.agenda = s.agenda ∧ t.draws = s.draws

/-- Two machines in the same operation: FBS, the queue and the bus are the same but for FIELD0..14 while a DECODE is in
flight, which still hold what an earlier call left (R34, R63). The Hosts and the moves to come may differ. -/
structure SameOperation (s₁ s₂ : State) : Prop where
  result : s₁.result = s₂.result
  busy : s₁.busy = s₂.busy
  doneFlag : s₁.doneFlag = s₂.doneFlag
  valid : s₁.valid = s₂.valid
  transport : s₁.transport = s₂.transport
  sra : s₁.sra = s₂.sra
  buf : s₁.buf = s₂.buf
  busReq : s₁.busReq = s₂.busReq
  busAns : s₁.busAns = s₂.busAns
  phase : s₁.phase = s₂.phase
  op : s₁.op = s₂.op
  sraL : s₁.sraL = s₂.sraL
  disc : s₁.disc = s₂.disc
  n : s₁.n = s₂.n
  rxq : s₁.rxq = s₂.rxq
  fields : ¬ Decoding s₁ → s₁.fields = s₂.fields

/-- The same move comes next in two machines; if it is the Host's, both Hosts are at the same line. -/
abbrev SameMove (s₁ s₂ : State) : Prop :=
  nextEvent s₁ = nextEvent s₂ ∧ (nextEvent s₁ = .host → s₁.hostProg[s₁.hostPc]? = s₂.hostProg[s₂.hostPc]?)

/-- The bus request that belongs to a phase (R29, R101, R121, R123). In CHECK the read of the bus path is still recorded,
with its answer taken; `finish` clears it (R35). -/
def reqOfPhase (p : Phase) (q : BusReq) : Prop :=
  match p with
  | .idle => q = .none
  | .dispatch => q = .none
  | .probeWait => q = .probe Config.busAddr
  | .busWait => q = .read Config.busAddr Config.busReadLen
  | .scan => q = .none
  | .fill => q = .none
  | .check => q = .none ∨ q = .read Config.busAddr Config.busReadLen

/-- The operation and the binding that belong to a phase (R30, R101, R105, R121). -/
def opOfPhase (p : Phase) (i : Instr) (b : Transport) : Prop :=
  match p with
  | .idle => True
  | .dispatch => True
  | .probeWait => i = .attachBus
  | .busWait => i = .decode ∧ b = .bus
  | .scan => i = .decode ∧ b = .stream
  | .fill => i = .decode ∧ b = .stream
  | .check => i = .decode ∧ b ≠ .unbound

/-- The control state is coherent: BUSY = 1 exactly when phase ≠ IDLE (R30), RESULT shows NONE exactly until DONE (R24,
R35, R80), never BUSY and DONE together, and the bus request, its answer and the operation fit the phase (R29, R233). -/
structure ControlInv (s : State) : Prop where
  busy_iff : s.busy = true ↔ s.phase ≠ .idle
  done_idle : s.doneFlag = true → s.busy = false
  result_none : s.result = .none ↔ s.doneFlag = false
  req : reqOfPhase s.phase s.busReq
  answer : ∀ r, s.busAns = some r → answersReq r s.busReq = true
  op : opOfPhase s.phase s.op s.transport

/-- The acquisition is coherent: the buffer is in canonical form, the counters are in their ranges (R32, R33), SCAN has
stored nothing, FILL has room, and a DECODE in flight has 0x00 in every byte it has not stored (R28, R80, R138). -/
structure BufferInv (s : State) : Prop where
  wf : s.buf.wf = true
  disc_le : s.disc ≤ 32
  n_le : s.n ≤ 32
  fresh : s.op = .decode → s.phase = .dispatch → s.n = 0
  scan_empty : s.phase = .scan → s.n = 0
  fill_room : s.phase = .fill → s.n < 32
  rest_zero : Decoding s → ∀ i, s.n ≤ i → s.buf.read i = 0x00

/-- The sum a valid Reading's frame has: the header bytes and both bytes of fields 0..13 (R163, R171). -/
def readingSum (f : Reading) : Nat :=
  0x42 + 0x4D + ((f.toList.take 14).map fun w => w.toNat / 256 + w.toNat % 256).sum

/-- VALID means a checked Reading: the checksum field equals the sum over the others (R24, R168, R176); with VALID = 0 and
no DECODE in flight all fifteen fields are 0x0000 (R26, R35); a DECODE in flight has VALID = 0 (R80). -/
structure ReadingInv (s : State) : Prop where
  checked : s.valid = true → (s.fields[14]).toNat = readingSum s.fields
  cleared : s.valid = false → ¬ Decoding s → s.fields = noReading
  in_flight : Decoding s → s.valid = false

/-- On the default path the fill starts at the marker: until the first byte is stored the queue's head is 0x42, and from
then on buffer byte 0 is 0x42 (R132, R135, R162). -/
structure MarkerInv (s : State) : Prop where
  at_head : s.phase = .fill → s.sraL = false → s.n = 0 → s.rxq.head? = some 0x42
  stored : (s.phase = .fill ∨ s.phase = .check) → s.transport = .stream → s.sraL = false → 0 < s.n →
    s.buf.read 0 = 0x42

/-- Every invariant of the machine. -/
structure Inv (s : State) : Prop where
  control : ControlInv s
  buffer : BufferInv s
  reading : ReadingInv s
  marker : MarkerInv s

/-- A state is reachable when some number of steps leads to it from a reset FBS in some environment: any queue, any host
program at any line, any moves to come (R36, R37, R61). -/
def Reachable (t : State) : Prop :=
  ∃ (s : State) (k : Nat), Host.Core.run Sys2Proof.core k (fbsReset s) = .next t

end Sys2Proof.Machine
end

