-- ==== Sys2Proof/Certificates/Slice0/Obligations.lean ====
section
/-! DEFINITION. The statements about the machine, from the spec's numbered rules. -/

open Sys2Proof Sys2Proof.Machine

/-! Decoding, placing and running commands. -/

/-- R55, R80, R30: when the Host's next line writes a command's word to CMD and FBS is idle, the step is `exec` of that
command, the Host's line taken and the move consumed; when the Engine moves, the step is `exec` of the operation in flight. -/
def Obligations.StepRunsTheDecodedCommand : Prop :=
  (∀ (s : Machine.State) (w : Word) (i : Instr) (rest : List Event),
    s.agenda = .host :: rest → s.hostProg[s.hostPc]? = some (hostWr cmdAddr w) → decodeWord w = .ok i → s.busy = false →
      step s = exec i { s with agenda := rest, hostPc := s.hostPc + 1 }) ∧
  (∀ (s : Machine.State) (rest : List Event),
    s.agenda = .engine :: rest → s.busy = true → step s = exec s.op { s with agenda := rest })

/-- Log entry 14: a placed command is the very next thing the machine runs. -/
def Obligations.PlacedCommandRunsNext : Prop :=
  ∀ (s : Machine.State) (i : Instr), s.busy = false →
    step (s.withFetchWord 16 (encode i).toNat) =
      exec i { s with hostProg := [hostWr cmdAddr (encode i)], hostPc := 1 }

/-- R71: the three full words, and a few reserved ones, bit by bit. -/
def Obligations.SpecWordsDecode : Prop :=
  decodeTableWord 16 0b0000000000000001 = some .attachBus ∧
  decodeTableWord 16 0b0000000000000010 = some .attachStream ∧
  decodeTableWord 16 0b0000000000000011 = some .decode ∧
  decodeTableWord 16 0b0000000000000000 = none ∧ decodeTableWord 16 0b0000000000000100 = none ∧
  decodeTableWord 16 0b0000000100000011 = none

/-- R71: a word is a command exactly when all its 16 bits are those of the command. -/
def Obligations.DecodeComparesAllSixteenBits : Prop :=
  ∀ (w : Word), (decodeWord w = .ok .attachBus ↔ w = 0x0001) ∧ (decodeWord w = .ok .attachStream ↔ w = 0x0002) ∧
    (decodeWord w = .ok .decode ↔ w = 0x0003)

/-- R82: each bare mnemonic assembles to one host write of its word to CMD. -/
def Obligations.MnemonicsAssemble : Prop :=
  (assemble "ATTACH_BUS").map issue = some (hostWr cmdAddr 0x0001) ∧
  (assemble "ATTACH_STREAM").map issue = some (hostWr cmdAddr 0x0002) ∧
  (assemble "DECODE").map issue = some (hostWr cmdAddr 0x0003)

/-- R83: the 22-bit listing and the well-formed host accesses are in one-to-one correspondence, with bit 21 the
direction, bits 20:16 the address and bits 15:0 the value. That a word which decodes encodes back to itself rests on log
entry 16 (DEDUCED): a read listed with a value other than 0 decodes to nothing. -/
def Obligations.AccessListingRoundTrip : Prop :=
  (∀ (h : HostAccess), h.wf = true →
    decodeAccess (encodeAccess h) = some h ∧ (encodeAccess h).getLsbD 21 = h.write ∧
      (encodeAccess h).extractLsb' 16 5 = h.addr ∧ (encodeAccess h).extractLsb' 0 16 = h.value) ∧
  (∀ (w : BitVec 22) (h : HostAccess), decodeAccess w = some h → h.wf = true ∧ encodeAccess h = w)

/-! Acceptance of commands (R73, R80, R81). -/

/-- R80: the whole effect of a host write to CMD, with every register it sets; what is not named stays as it is. -/
def Obligations.CommandWriteEffect : Prop :=
  ∀ (s : Machine.State) (w : Word),
    commandWrite w s =
      if s.busy = true then .fault .cmdWhileBusy
      else if w = 0x0001 then
        .next { s with op := .attachBus, result := .none, doneFlag := false, busy := true, phase := .dispatch }
      else if w = 0x0002 then
        .next { s with op := .attachStream, result := .none, doneFlag := false, busy := true, phase := .dispatch }
      else if w = 0x0003 then
        .next { s with
          op := .decode, result := .none, doneFlag := false, busy := true, valid := false, sraL := s.sra,
          buf := Memory.cleared, disc := 0, n := 0, phase := .dispatch }
      else .next s

/-- R73: while BUSY = 0, a write of any word but the three commands' is ignored, through the register port too. -/
def Obligations.ReservedWordsAreIgnored : Prop :=
  ∀ (s : Machine.State) (w : Word), s.busy = false →
    w.extractLsb' 8 8 ≠ 0x00 ∨ (w.extractLsb' 0 8 ≠ 0x01 ∧ w.extractLsb' 0 8 ≠ 0x02 ∧ w.extractLsb' 0 8 ≠ 0x03) →
    hostWrite cmdAddr w s = .next s

/-- R81, R240: any write to CMD while BUSY = 1 is FAULT(CmdWhileBusy), a reserved word too. -/
def Obligations.CommandWriteWhileBusyFaults : Prop :=
  ∀ (s : Machine.State) (w : Word), s.busy = true → hostWrite cmdAddr w s = .fault .cmdWhileBusy

/-- R80, R28: right after a DECODE is accepted every buffer byte reads 0x00, and CONFIG.SRA is latched. -/
def Obligations.AcceptedDecodeStartsClean : Prop :=
  ∀ (s : Machine.State), s.busy = false →
    ∃ t, exec .decode s = .next t ∧ (∀ a, t.buf.read a = 0x00) ∧ t.sraL = s.sra ∧ t.disc = 0 ∧ t.n = 0 ∧
      t.valid = false ∧ t.transport = s.transport ∧ t.fields = s.fields ∧ t.rxq = s.rxq ∧ Running .decode .dispatch t

/-! Transport selection. -/

/-- R101: the Engine steps of ATTACH_BUS: the probe, and the two answers. -/
def Obligations.AttachBusEngineSteps : Prop :=
  (∀ s : Machine.State, Running .attachBus .dispatch s →
    exec .attachBus s =
      .next { s with busReq := .probe Config.busAddr, busAns := none, phase := .probeWait }) ∧
  (∀ s : Machine.State, Running .attachBus .probeWait s → s.busAns = some .ack →
    exec .attachBus s = .next (attachCompleted .ok { s with transport := .bus })) ∧
  (∀ s : Machine.State, Running .attachBus .probeWait s → s.busAns = some .nack →
    exec .attachBus s = .next (attachCompleted .deviceNotFound s))

/-- R105: the Engine step of ATTACH_STREAM always binds the stream and completes with OK. -/
def Obligations.AttachStreamEngineStep : Prop :=
  ∀ s : Machine.State, Running .attachStream .dispatch s →
    exec .attachStream s = .next (attachCompleted .ok { s with transport := .stream })

/-- R100, R103, R106, R202: what no move of an attach changes: FIELD0..14, VALID, CONFIG, the buffer, the latch and
counters of DECODE, the queue, the Host; and the binding only becomes what the command binds. -/
def Obligations.AttachFrame : Prop :=
  ∀ (i : Instr) (s t : Machine.State), i = .attachBus ∨ i = .attachStream → exec i s = .next t →
    t.fields = s.fields ∧ t.valid = s.valid ∧ t.sra = s.sra ∧ t.sraL = s.sraL ∧ t.disc = s.disc ∧ t.n = s.n ∧
    t.rxq = s.rxq ∧ (∀ a, t.buf.read a = s.buf.read a) ∧ SameHost s t ∧ t.op = i ∧
    (t.transport = s.transport ∨ (i = .attachBus ∧ t.transport = .bus) ∨ (i = .attachStream ∧ t.transport = .stream)) ∧
    (i = .attachStream → t.busReq = s.busReq ∨ t.busReq = .none)

/-- R100, R101, R102: from any idle FBS with no request outstanding, ATTACH_BUS runs to completion in two Engine steps
around the BusTarget's answer, and binds the bus exactly when the answer is Ack. -/
def Obligations.AttachBusRunsToCompletion : Prop :=
  ∀ (s : Machine.State) (r : BusAnswer), s.busy = false → r = .ack ∨ r = .nack →
    ∃ s₀ s₁ t, exec .attachBus s = .next s₀ ∧ engineStep s₀ = .next s₁ ∧ engineStep (busTarget r s₁) = .next t ∧
      t.busy = false ∧ t.doneFlag = true ∧ t.result = (if r = .ack then .ok else .deviceNotFound) ∧
      t.transport = (if r = .ack then .bus else s.transport) ∧ t.fields = s.fields ∧ t.valid = s.valid ∧ t.rxq = s.rxq

/-! DECODE: dispatch and the bus path. -/

/-- R121, R122, R130: the dispatch step of DECODE, by the binding. -/
def Obligations.DecodeDispatchStep : Prop :=
  ∀ s : Machine.State, Running .decode .dispatch s →
    exec .decode s = .next
      (match s.transport with
        | .unbound => decodeFailed .transportError s
        | .bus => { s with busReq := .read Config.busAddr 32, busAns := none, phase := .busWait }
        | .stream => if s.rxq = [] then decodeFailed .noData s else { s with phase := .scan })

/-- R123: the answer of the bus read is taken whole, byte i at index i, or the DECODE fails. -/
def Obligations.BusReadAnswerStep : Prop :=
  (∀ (s : Machine.State) (d : Vector Byte 32), Running .decode .busWait s → s.buf.wf = true → s.busAns = some (.data d) →
    ∃ m : Memory, exec .decode s = .next { s with buf := m, n := 32, phase := .check } ∧
      ∀ i : Fin 32, m.read i.val = d[i]) ∧
  (∀ s : Machine.State, Running .decode .busWait s → s.busAns = some .fail →
    exec .decode s = .next (decodeFailed .transportError s))

/-- R123, R125, R160, R171: on the bus path a DECODE whose answer is a valid frame commits the frame's fields in three
Engine steps, and touches no queued byte. -/
def Obligations.BusDecodeCommitsValidFrame : Prop :=
  ∀ (s : Machine.State) (d : Vector Byte 32), s.busy = false → s.transport = .bus → ValidFrame d.toList →
    ∃ s₀ s₁ t, exec .decode s = .next s₀ ∧ engineStep s₀ = .next s₁ ∧
      engineRun 2 (busTarget (.data d) s₁) = .next t ∧ t.busy = false ∧ t.doneFlag = true ∧ t.result = .ok ∧
      t.valid = true ∧ t.rxq = s.rxq ∧
      ∀ k : Fin 15, (t.fields[k]).toNat = pairValue (frameByte d.toList (2 + 2 * k)) (frameByte d.toList (3 + 2 * k))

/-! DECODE: the stream path. -/

/-- R132, R133, R134: one SCAN step, its tests in the order empty, marker, bound, discard. -/
def Obligations.ScanStep : Prop :=
  ∀ s : Machine.State, Running .decode .scan s →
    exec .decode s = .next
      (match s.rxq with
        | [] => if s.sraL = false then decodeFailed .framingError s else { s with phase := .fill }
        | b :: rest =>
          if b = 0x42 then { s with phase := .fill }
          else if s.disc = 32 then decodeFailed .framingError s
          else { s with rxq := rest, disc := s.disc + 1 })

/-- R135: one FILL step pops the head byte into buffer byte n and counts it, CHECK follows at 32, and every other byte
stays. -/
def Obligations.FillStep : Prop :=
  ∀ (s : Machine.State) (b : Byte) (rest : List Byte), Running .decode .fill s → s.buf.wf = true → s.n < 32 →
    s.rxq = b :: rest →
      ∃ m : Memory, exec .decode s =
          .next { s with rxq := rest, buf := m, n := s.n + 1, phase := if s.n + 1 = 32 then .check else .fill } ∧
        m.read s.n = b ∧ ∀ a, a ≠ s.n → m.read a = s.buf.read a

/-- R245, log entry 2 (the model's choice: a wait is a move that changes nothing): the Engine's move while PROBE_WAIT or
BUS_WAIT has no answer, or FILL no byte. -/
def Obligations.WaitingEngineChangesNothing : Prop :=
  (∀ s : Machine.State, Running .attachBus .probeWait s → s.busAns = none → exec .attachBus s = .next s) ∧
  (∀ s : Machine.State, Running .decode .busWait s → s.busAns = none → exec .decode s = .next s) ∧
  (∀ s : Machine.State, Running .decode .fill s → s.rxq = [] → exec .decode s = .next s)

/-- R136, R137: EndRead is taken only in FILL with n < 32 and an empty queue, and is then the short transfer:
TransportError by default, CHECK with the rest of the buffer as it is on the degraded path. -/
def Obligations.EndReadIsTheShortTransfer : Prop :=
  (∀ s : Machine.State, s.op = .decode → s.phase = .fill → s.n < 32 → s.rxq = [] →
    endRead s = if s.sraL = false then decodeFailed .transportError s else { s with phase := .check }) ∧
  (∀ s : Machine.State, ¬ (s.phase = .fill ∧ s.n < 32 ∧ s.rxq = []) → endRead s = s)

/-- R132, R133, R139(f): a SCAN never waits: left alone, the Engine leaves it within 33 steps. -/
def Obligations.ScanEndsWithinThirtyThreeSteps : Prop :=
  ∀ s : Machine.State, Running .decode .scan s → s.disc ≤ 32 →
    ∃ (k : Nat) (t : Machine.State), k ≤ 33 ∧ engineRun k s = .next t ∧ t.phase ≠ .scan ∧ t.disc ≤ 32

/-- R141(a), R139(a), R139(c), R246: at most 32 queued bytes without a marker, then a valid frame: DECODE discards exactly
those bytes, commits the frame's fields, leaves what follows the frame queued, and takes 35 + N Engine steps. -/
def Obligations.ResyncFindsTheFrame : Prop :=
  ∀ (s : Machine.State) (g F rest : List Byte), s.busy = false → s.transport = .stream → s.rxq = g ++ F ++ rest →
    g.length ≤ 32 → (0x42 : Byte) ∉ g → ValidFrame F →
    ∃ s₀ t, exec .decode s = .next s₀ ∧ engineRun (35 + g.length) s₀ = .next t ∧ t.busy = false ∧ t.doneFlag = true ∧
      t.result = .ok ∧ t.valid = true ∧ t.rxq = rest ∧ t.disc = g.length ∧ t.transport = .stream ∧
      ∀ k : Fin 15, (t.fields[k]).toNat = pairValue (frameByte F (2 + 2 * k)) (frameByte F (3 + 2 * k))

/-- R133, R141(b), R246: 33 or more queued bytes whose first 33 hold no marker: FramingError after 34 Engine steps, 32
bytes consumed, the 33rd still at the head, whatever CONFIG.SRA is. -/
def Obligations.ResyncStopsAtItsBound : Prop :=
  ∀ (s : Machine.State) (g : List Byte) (b : Byte) (rest : List Byte), s.busy = false → s.transport = .stream →
    s.rxq = g ++ b :: rest → g.length = 32 → (0x42 : Byte) ∉ g → b ≠ 0x42 →
    ∃ s₀ t, exec .decode s = .next s₀ ∧ engineRun 34 s₀ = .next t ∧ t.busy = false ∧ t.doneFlag = true ∧
      t.result = .framingError ∧ t.valid = false ∧ t.rxq = b :: rest ∧ t.disc = 32 ∧
      t.fields = Vector.replicate 15 0x0000#16

/-- R134, R139(d), R141(b): a queue of 1 to 32 bytes without a marker runs dry during SCAN: FramingError with SRA = 0,
the unconfirmed fill with SRA = 1. -/
def Obligations.ResyncExhaustion : Prop :=
  ∀ s : Machine.State, s.busy = false → s.transport = .stream → s.rxq ≠ [] → s.rxq.length ≤ 32 →
    (0x42 : Byte) ∉ s.rxq →
    ∃ s₀ t, exec .decode s = .next s₀ ∧ engineRun (2 + s.rxq.length) s₀ = .next t ∧ t.rxq = [] ∧
      t.disc = s.rxq.length ∧
      (if s.sra = false then t.result = .framingError ∧ t.busy = false ∧ t.doneFlag = true
       else Running .decode .fill t ∧ t.n = 0)

/-- R140: on the stream path every byte taken from the queue, and no other, is counted as discarded or stored. A step by
any agent's move raises disc + n by one exactly when it takes the head byte, and else leaves it; so along every run of the
Engine alone the bytes taken since acceptance are disc + n, at most 32 of each kind. -/
def Obligations.ConsumedBytesAreCounted : Prop :=
  (∀ s t : Machine.State, ControlInv s → Decoding s → s.transport = .stream → nextEvent s ≠ .reset → step s = .next t →
    (t.rxq = s.rxq ∧ t.disc + t.n = s.disc + s.n) ∨
    (∃ b, nextEvent s = .append b ∧ t.rxq = s.rxq ++ [b] ∧ t.disc + t.n = s.disc + s.n) ∨
    (∃ b, nextEvent s = .engine ∧ s.rxq = b :: t.rxq ∧ t.disc + t.n = s.disc + s.n + 1)) ∧
  (∀ (s s₀ t : Machine.State) (k : Nat), s.busy = false → s.transport = .stream → exec .decode s = .next s₀ →
    engineRun k s₀ = .next t →
    ∃ popped : List Byte, s.rxq = popped ++ t.rxq ∧ popped.length = t.disc + t.n ∧ t.disc ≤ 32 ∧ t.n ≤ 32)

/-! DECODE: validation and commit. -/

/-- R161: the header validator is an exact match of the two bytes. -/
def Obligations.HeaderIsAnExactMatch : Prop :=
  ∀ m : Memory, headerOK m = true ↔ (m.read 0).toNat = 0x42 ∧ (m.read 1).toNat = 0x4D

/-- R163, R164, R165: the checksum is the exact sum of bytes 0..29 modulo 2^16, and that sum is at most 7650. -/
def Obligations.ChecksumIsTheSumModulo : Prop :=
  ∀ m : Memory, (checksum m).toNat = bufferSum m % 65536 ∧ bufferSum m ≤ 7650

/-- R164: one addition wraps modulo 2^16, and the order of the additions does not matter. -/
def Obligations.AccumulatorWrapsInAnyOrder : Prop :=
  (∀ (acc : Word) (b : Byte), (accumulate acc b).toNat = (acc.toNat + b.toNat) % 65536) ∧
  (∀ l₁ l₂ : List Byte, l₁.Perm l₂ → sumBytes l₁ = sumBytes l₂)

/-- R166, R51: each field is its pair of bytes, high byte first; 0x01 0x2C is 300. -/
def Obligations.UnpackIsBigEndian : Prop :=
  (∀ m : Memory, ReadingOf m (unpack m)) ∧ (bigEndian 0x01 0x2C).toNat = 300

/-- R171, R176: CHECK of a buffer with the right header and checksum commits the buffer's fields with OK; nothing but
STATUS, FIELD0..14, the bus request and the phase changes. -/
def Obligations.CheckCommitsValidBuffer : Prop :=
  ∀ s : Machine.State, Running .decode .check s → s.buf.read 0 = 0x42 → s.buf.read 1 = 0x4D →
    pairValue (s.buf.read 30) (s.buf.read 31) = bufferSum s.buf % 65536 →
    ∃ f, exec .decode s = .next (decodeCommitted f s) ∧ ReadingOf s.buf f

/-- R172, R169: CHECK of a buffer with a wrong header gives InvalidHeader whatever the checksum; with the right header and
a wrong checksum, ChecksumMismatch. -/
def Obligations.CheckRejectsBadBuffer : Prop :=
  ∀ s : Machine.State, Running .decode .check s →
    (¬ (s.buf.read 0 = 0x42 ∧ s.buf.read 1 = 0x4D) → exec .decode s = .next (decodeFailed .invalidHeader s)) ∧
    (s.buf.read 0 = 0x42 → s.buf.read 1 = 0x4D →
      pairValue (s.buf.read 30) (s.buf.read 31) ≠ bufferSum s.buf % 65536 →
      exec .decode s = .next (decodeFailed .checksumMismatch s))

/-- R160: the CHECK step reads only the buffer: two machines with equal buffers get the same result, VALID and fields,
whatever their queues, bus, CONFIG and latches are. -/
def Obligations.CheckReadsOnlyTheBuffer : Prop :=
  ∀ s₁ s₂ : Machine.State, Running .decode .check s₁ → Running .decode .check s₂ →
    (∀ i, i < 32 → s₁.buf.read i = s₂.buf.read i) →
    ∃ t₁ t₂, exec .decode s₁ = .next t₁ ∧ exec .decode s₂ = .next t₂ ∧ t₁.result = t₂.result ∧ t₁.valid = t₂.valid ∧
      t₁.fields = t₂.fields

/-- R35: completion, for each operation and code. -/
def Obligations.FinishCompletesTheOperation : Prop :=
  ∀ (code : ResultCode) (f : Reading) (s : Machine.State),
    finish code f s =
      if s.op = .decode then (if code = .ok then decodeCommitted f s else decodeFailed code s)
      else attachCompleted code s

/-- R120, R125, R202: what no move of DECODE changes: the binding, CONFIG, the Host; the queue only loses its head byte;
and which buffer bytes it may write: all at acceptance (they become 0x00), 0..31 when 32 bytes are taken from the bus, none
in BUS_WAIT otherwise, byte n in FILL, none in any other phase. -/
def Obligations.DecodeFrame : Prop :=
  ∀ s t : Machine.State, exec .decode s = .next t →
    t.transport = s.transport ∧ t.sra = s.sra ∧ SameHost s t ∧ t.op = .decode ∧
    (t.rxq = s.rxq ∨ t.rxq = s.rxq.tail) ∧ (s.busy = true → t.sraL = s.sraL) ∧
    (s.busy = false → ∀ a, t.buf.read a = 0x00) ∧
    (s.busy = true → s.phase = .busWait → ∀ a, 32 ≤ a → t.buf.read a = s.buf.read a) ∧
    (s.busy = true → s.phase = .busWait → (∀ d, s.busAns ≠ some (.data d)) → ∀ a, t.buf.read a = s.buf.read a) ∧
    (s.busy = true → s.phase = .fill → ∀ a, a ≠ s.n → t.buf.read a = s.buf.read a) ∧
    (s.busy = true → s.phase ≠ .busWait → s.phase ≠ .fill → ∀ a, t.buf.read a = s.buf.read a)

/-- R34: each DECODE is independent of earlier calls. Accepted by two coherent idle machines with the same binding,
CONFIG.SRA and queue, whatever else they hold, it starts them in the same operation; every same move, of whichever agent,
keeps them in it or stops both with the same fault; and a run of the Engine alone shows the same in both. -/
def Obligations.DecodeForgetsEarlierCalls : Prop :=
  (∀ s₁ s₂ : Machine.State, ControlInv s₁ → ControlInv s₂ → s₁.busy = false → s₂.busy = false →
    s₁.transport = s₂.transport → s₁.sra = s₂.sra → s₁.rxq = s₂.rxq →
    ∃ a₁ a₂, exec .decode s₁ = .next a₁ ∧ exec .decode s₂ = .next a₂ ∧ SameOperation a₁ a₂) ∧
  (∀ s₁ s₂ : Machine.State, SameOperation s₁ s₂ → SameMove s₁ s₂ →
    (∀ t₁, step s₁ = .next t₁ → ∃ t₂, step s₂ = .next t₂ ∧ SameOperation t₁ t₂) ∧
    (∀ f, step s₁ = .fault f → step s₂ = .fault f)) ∧
  (∀ (s₁ s₂ a₁ a₂ t₁ : Machine.State) (k : Nat), ControlInv s₁ → ControlInv s₂ → s₁.busy = false → s₂.busy = false →
    s₁.transport = s₂.transport → s₁.sra = s₂.sra → s₁.rxq = s₂.rxq → exec .decode s₁ = .next a₁ →
    exec .decode s₂ = .next a₂ → engineRun k a₁ = .next t₁ →
    ∃ t₂, engineRun k a₂ = .next t₂ ∧ t₁.result = t₂.result ∧ t₁.busy = t₂.busy ∧ t₁.doneFlag = t₂.doneFlag ∧
      t₁.valid = t₂.valid ∧ t₁.rxq = t₂.rxq ∧ (t₁.busy = false → t₁.fields = t₂.fields))

/-! The host port. -/

/-- R55: the value at each of the 32 word addresses, and the effect of a write to each. -/
def Obligations.HostAccessSemantics : Prop :=
  (∀ (s : Machine.State) (a : RegAddr),
    hostRead a s =
      if a = 0x00 then 0x0000
      else if a = 0x01 then statusWord s
      else if a = 0x02 then (if s.sra = true then 0x0001 else 0x0000)
      else if h : 0x10 ≤ a.toNat ∧ a.toNat ≤ 0x1E then s.fields[a.toNat - 0x10]'(by omega)
      else 0x0000) ∧
  (∀ (s : Machine.State) (a : RegAddr) (w : Word),
    hostWrite a w s =
      if a = 0x00 then commandWrite w s
      else if a = 0x02 then .next { s with sra := w.getLsbD 0 }
      else .next s)

/-- R24: the bits of STATUS, and the two bits of each binding. -/
def Obligations.StatusWordLayout : Prop :=
  Transport.unbound.bits = 0b00 ∧ Transport.bus.bits = 0b01 ∧ Transport.stream.bits = 0b10 ∧
  ∀ s : Machine.State,
    (statusWord s).extractLsb' 0 4 = s.result.code ∧ (statusWord s).getLsbD 4 = s.busy ∧
    (statusWord s).getLsbD 5 = s.doneFlag ∧ (statusWord s).getLsbD 6 = s.valid ∧ (statusWord s).getLsbD 7 = false ∧
    (statusWord s).extractLsb' 8 2 = s.transport.bits ∧ (statusWord s).extractLsb' 10 6 = 0#6

/-- R75: the code of each result; R76: 0x7..0xE are none's. -/
def Obligations.ResultCodesAsTabled : Prop :=
  ResultCode.ok.code = 0x0 ∧ ResultCode.deviceNotFound.code = 0x1 ∧ ResultCode.transportError.code = 0x2 ∧
  ResultCode.noData.code = 0x3 ∧ ResultCode.framingError.code = 0x4 ∧ ResultCode.invalidHeader.code = 0x5 ∧
  ResultCode.checksumMismatch.code = 0x6 ∧ ResultCode.none.code = 0xF ∧
  ∀ (c : BitVec 4) (r : ResultCode), resultOfCode c = some r ↔ r.code = c

/-- R56: a host read changes nothing but the value the Host holds, and gives the same value again; a second write of the
same value to CONFIG changes nothing more. -/
def Obligations.HostReadsHaveNoSideEffect : Prop :=
  (∀ (s : Machine.State) (h : HostAccess), h.width = 16 → h.write = false →
    hostAccess h s = .next { s with hostLast := hostRead h.addr s } ∧
      ∀ a, hostRead a { s with hostLast := hostRead h.addr s } = hostRead a s) ∧
  (∀ (s t : Machine.State) (w : Word), hostWrite configAddr w s = .next t → hostWrite configAddr w t = .next t)

/-- R84: one turn of `wait_done`: the Host reads STATUS and goes past the loop exactly if DONE is 1, else back to its
first line; FBS is not changed. -/
def Obligations.WaitDoneTurn : Prop :=
  ∀ (s : Machine.State) (rest : List Event), s.agenda = .host :: .host :: rest →
    s.hostProg[s.hostPc]? = some (hostRd statusAddr) →
    s.hostProg[s.hostPc + 1]? = some (.ifGoto { mask := 0x0020, value := 0x0000, equal := true } s.hostPc) →
    ∃ u, step s = .next u ∧
      step u = .next { s with
        agenda := rest, hostLast := statusWord s, hostPc := if s.doneFlag = true then s.hostPc + 2 else s.hostPc }

/-! Agents, faults, reset. -/

/-- R102, R124, R29, R233: the BusTarget answers only an outstanding request that has no answer yet, with an answer of its
kind; otherwise nothing happens. -/
def Obligations.BusTargetAnswersOnce : Prop :=
  ∀ (s : Machine.State) (r : BusAnswer),
    (s.busReq = .none ∨ s.busAns ≠ none → busTarget r s = s) ∧
    (∀ a, s.busReq = .probe a → s.busAns = none →
      busTarget r s = if r = .ack ∨ r = .nack then { s with busAns := some r } else s) ∧
    (∀ a len, s.busReq = .read a len → s.busAns = none →
      busTarget r s = if r = .ack ∨ r = .nack then s else { s with busAns := some r })

/-- R243: when the machine stops with a fault in a coherent state: exactly on a CMD write while busy, on a host access
that is not 16 bits wide, and on a foreign removal of queued bytes. -/
def Obligations.FaultsExactlyAsListed : Prop :=
  ∀ (s : Machine.State) (f : Fault), BufferInv s →
    (step s = .fault f ↔
      (f = .hostAccessWidth ∧ nextEvent s = .host ∧
        ∃ h, s.hostProg[s.hostPc]? = some (.access h) ∧ h.width ≠ 16) ∨
      (f = .cmdWhileBusy ∧ nextEvent s = .host ∧ s.busy = true ∧
        ∃ w, s.hostProg[s.hostPc]? = some (hostWr cmdAddr w)) ∨
      (f = .foreignStreamConsumer ∧ nextEvent s = .foreignPop ∧ s.rxq ≠ []))

/-- R73, R200, R245: no step is refused, and no Engine step of a coherent state stops the machine. -/
def Obligations.NothingIsRefused : Prop :=
  (∀ (s : Machine.State) (r : Refusal), step s ≠ .refused r) ∧
  (∀ s : Machine.State, BufferInv s → ∃ t, engineStep s = .next t)

/-- R245: DISPATCH, SCAN and CHECK never wait: in a coherent state the Engine's step there changes the state. -/
def Obligations.DispatchScanCheckNeverWait : Prop :=
  ∀ s : Machine.State, ControlInv s → s.phase = .dispatch ∨ s.phase = .scan ∨ s.phase = .check →
    ∃ t, engineStep s = .next t ∧ t ≠ s

/-- R37, R230, R231: asserting reset, in any state, puts STATUS, CONFIG, FIELD0..14, the buffer, the bus request, the
phase and the counters at their reset values, and leaves the queue. -/
def Obligations.ResetEffect : Prop :=
  ∀ s : Machine.State,
    statusWord (fbsReset s) = 0x000F ∧ configWord (fbsReset s) = 0x0000 ∧
    (fbsReset s).fields = Vector.replicate 15 0x0000#16 ∧ (∀ i, (fbsReset s).buf.read i = 0x00) ∧
    (fbsReset s).busReq = .none ∧ (fbsReset s).phase = .idle ∧ (fbsReset s).disc = 0 ∧ (fbsReset s).n = 0 ∧
    doneO (fbsReset s) = false ∧ (fbsReset s).rxq = s.rxq ∧ SameHost s (fbsReset s) ∧
    (∀ rest, s.agenda = .reset :: rest → step s = .next { fbsReset s with agenda := rest })

/-- R37: what `State.reset` leaves, where the spec gives the value. -/
def Obligations.ResetStateAsTabled : Prop :=
  statusWord State.reset = 0x000F ∧ configWord State.reset = 0x0000 ∧
  (∀ k : Fin 15, State.reset.fields[k] = 0x0000) ∧ (∀ i, State.reset.buf.read i = 0x00) ∧
  State.reset.busReq = .none ∧ State.reset.phase = .idle ∧ State.reset.disc = 0 ∧ State.reset.n = 0 ∧
  doneO State.reset = false

/-! The whole machine: what only certain events change. -/

/-- R58: FIELD0..FIELD14 change only by reset or in the step that completes a DECODE, and then to a checked buffer's
fields with OK, or to fifteen times 0x0000 with an error. -/
def Obligations.FieldsChangeOnlyAtCompletion : Prop :=
  ∀ s t : Machine.State, ControlInv s → step s = .next t → t.fields ≠ s.fields →
    nextEvent s = .reset ∨
    (Decoding s ∧ t.busy = false ∧ t.doneFlag = true ∧
      ((t.result = .ok ∧ t.valid = true ∧ s.phase = .check ∧ ReadingOf s.buf t.fields) ∨
       (t.result ≠ .ok ∧ t.valid = false ∧ t.fields = Vector.replicate 15 0x0000#16)))

/-- R27, R107, R202: the binding changes only by reset or in the step that completes an attach with OK, and then to the
transport the attach names. -/
def Obligations.BindingChangesOnlyByAttach : Prop :=
  ∀ s t : Machine.State, step s = .next t → t.transport ≠ s.transport →
    nextEvent s = .reset ∨
    (s.busy = true ∧ t.busy = false ∧ t.doneFlag = true ∧ t.result = .ok ∧
      ((s.op = .attachBus ∧ s.phase = .probeWait ∧ s.busAns = some .ack ∧ t.transport = .bus) ∨
       (s.op = .attachStream ∧ t.transport = .stream)))

/-- R25, R202: CONFIG.SRA changes only by reset or by a host write to CONFIG, whose bit 0 it becomes. -/
def Obligations.ConfigChangesOnlyByTheHost : Prop :=
  ∀ s t : Machine.State, step s = .next t → t.sra ≠ s.sra →
    nextEvent s = .reset ∨
    (nextEvent s = .host ∧ ∃ w, s.hostProg[s.hostPc]? = some (hostWr configAddr w) ∧ t.sra = w.getLsbD 0)

/-- R31, R242: while an operation stays in flight, neither the operation nor the latched option changes, whatever is
written to CONFIG. -/
def Obligations.LatchHoldsWhileBusy : Prop :=
  ∀ s t : Machine.State, step s = .next t → s.busy = true → nextEvent s ≠ .reset → t.op = s.op ∧ t.sraL = s.sraL

/-- R36, R62: a step leaves the queue as it is, appends one byte at its tail, or takes its head byte for the DECODE in
flight. -/
def Obligations.QueueIsFifo : Prop :=
  ∀ s t : Machine.State, step s = .next t →
    t.rxq = s.rxq ∨ (∃ b, nextEvent s = .append b ∧ t.rxq = s.rxq ++ [b]) ∨
    (∃ b, nextEvent s = .engine ∧ Decoding s ∧ (s.phase = .scan ∨ s.phase = .fill) ∧ s.rxq = b :: t.rxq)

/-- R206: the level of done_o is STATUS.DONE; it rises in the step that completes an operation, and in no other, and falls
at an accepted command and at reset, and at nothing else. -/
def Obligations.DoneOutputEdges : Prop :=
  (∀ s : Machine.State, doneO s = (statusWord s).getLsbD 5) ∧
  ∀ s t : Machine.State, ControlInv s → step s = .next t →
    (doneO s = false → doneO t = true → s.busy = true ∧ t.busy = false) ∧
    (s.busy = true → t.busy = false → nextEvent s ≠ .reset → doneO s = false ∧ doneO t = true) ∧
    (doneO s = true → doneO t = false →
      nextEvent s = .reset ∨ (nextEvent s = .host ∧ s.busy = false ∧ Running t.op .dispatch t ∧ t.result = .none)) ∧
    (s.busy = false → t.busy = true → doneO t = false) ∧
    (nextEvent s = .reset → doneO t = false)

/-- R63: once DONE is seen, RESULT, VALID, TRANSPORT and FIELD0..14 keep their values through every step but reset, until
a command is accepted. -/
def Obligations.ResultsStayUntilNextCommand : Prop :=
  ∀ s t : Machine.State, ControlInv s → s.doneFlag = true → step s = .next t → nextEvent s ≠ .reset → t.busy = false →
    t.result = s.result ∧ t.doneFlag = true ∧ t.valid = s.valid ∧ t.transport = s.transport ∧ t.fields = s.fields

/-! Invariants every step keeps. -/

/-- R29, R30, R24: every step keeps the control state coherent. -/
def Obligations.StepKeepsControlInv : Prop :=
  ∀ s t : Machine.State, ControlInv s → step s = .next t → ControlInv t

/-- R28, R32, R33: every step keeps the buffer canonical and the counters in range. -/
def Obligations.StepKeepsBufferInv : Prop :=
  ∀ s t : Machine.State, BufferInv s → step s = .next t → BufferInv t

/-- R24, R26, R35: every step keeps VALID the mark of a checked Reading. -/
def Obligations.StepKeepsReadingInv : Prop :=
  ∀ s t : Machine.State, ReadingInv s → step s = .next t → ReadingInv t

/-- R162: every step keeps the marker at the start of a default-path fill. -/
def Obligations.StepKeepsMarkerInv : Prop :=
  ∀ s t : Machine.State, Inv s → step s = .next t → MarkerInv t

/-- R37: every invariant holds after reset, in every environment. -/
def Obligations.ResetMeetsEveryInvariant : Prop :=
  Inv State.reset ∧ ∀ s : Machine.State, Inv (fbsReset s)

/-- R24, R30, R75, R76: whatever a host reads of STATUS, in any state that any run reaches from a reset FBS in any
environment: BUSY and DONE are never both 1, RESULT is NONE exactly until DONE, no reserved code and no binding 0b11
shows, reserved bits are 0, BUSY = 1 exactly outside IDLE, and VALID = 1 only over a Reading whose checksum field is right. -/
def Obligations.StatusOfEveryReachableState : Prop :=
  ∀ t : Machine.State, Reachable t →
    ¬ ((statusWord t).getLsbD 4 = true ∧ (statusWord t).getLsbD 5 = true) ∧
    ((statusWord t).extractLsb' 0 4 = 0xF ↔ (statusWord t).getLsbD 5 = false) ∧
    ((statusWord t).extractLsb' 0 4 = 0xF ∨ ((statusWord t).extractLsb' 0 4).toNat ≤ 6) ∧
    (statusWord t).extractLsb' 8 2 ≠ 0b11 ∧ (statusWord t).getLsbD 7 = false ∧ (statusWord t).extractLsb' 10 6 = 0 ∧
    ((statusWord t).getLsbD 4 = true ↔ t.phase ≠ .idle) ∧
    ((statusWord t).getLsbD 6 = true → (t.fields[14]).toNat = readingSum t.fields)
end

