-- ==== Sys2Proof/Laws/Memory.lean ====
section
/-! SUPPORT. The frame buffer as memory: reading after writing, and the canonical form that every operation keeps. -/

namespace Sys2Proof.Machine

@[simp] theorem Memory.read_cleared (i : Nat) : Memory.cleared.read i = 0x00 := rfl

@[simp] theorem Memory.wf_cleared : Memory.cleared.wf = true := rfl

theorem Memory.read_of_lt_wfFrom {m : Memory} {lo i : Nat} (h : m.wfFrom lo = true) (hi : i < lo) :
    m.read i = 0x00 := by
  induction m generalizing lo with
  | nil => rfl
  | cons c rest ih =>
    obtain ⟨j, b⟩ := c
    simp only [Memory.wfFrom, Bool.and_eq_true, decide_eq_true_eq] at h
    have hj : j ≠ i := by omega
    simp only [Memory.read, hj, if_false]
    exact ih h.2 (by omega)

theorem Memory.wfFrom_mono {m : Memory} {lo lo' : Nat} (h : m.wfFrom lo = true) (hl : lo' ≤ lo) :
    m.wfFrom lo' = true := by
  cases m with
  | nil => rfl
  | cons c rest =>
    obtain ⟨j, b⟩ := c
    simp only [Memory.wfFrom, Bool.and_eq_true, decide_eq_true_eq] at h ⊢
    exact ⟨⟨⟨by omega, h.1.1.2⟩, h.1.2⟩, h.2⟩

/-- A write leaves every other byte alone. -/
theorem Memory.read_write_ne (m : Memory) {i a : Nat} (v : Byte) (h : a ≠ i) :
    (m.write i v).read a = m.read a := by
  induction m with
  | nil => by_cases hv : v = 0#8 <;> simp [Memory.write, Memory.read, hv, Ne.symm h]
  | cons c rest ih =>
    obtain ⟨j, b⟩ := c
    simp only [Memory.write]
    split
    · split <;> simp [Memory.read, Ne.symm h]
    · split
      · rename_i hij
        subst hij
        split <;> simp [Memory.read, Ne.symm h]
      · simp only [Memory.read, ih]

/-- A read after a write to the same byte gives the value written. -/
theorem Memory.read_write_self {m : Memory} {lo : Nat} (h : m.wfFrom lo = true) (i : Nat) (v : Byte) :
    (m.write i v).read i = v := by
  induction m generalizing lo with
  | nil => by_cases hv : v = 0#8 <;> simp [Memory.write, Memory.read, hv]
  | cons c rest ih =>
    obtain ⟨j, b⟩ := c
    have hr : Memory.wfFrom (j + 1) rest = true := by
      simp only [Memory.wfFrom, Bool.and_eq_true] at h
      exact h.2
    simp only [Memory.write]
    split
    · rename_i hij
      split
      · rename_i hv
        have hji : j ≠ i := by omega
        simp only [Memory.read, hji, if_false, hv]
        exact Memory.read_of_lt_wfFrom hr (by omega)
      · simp [Memory.read]
    · split
      · rename_i hij
        subst hij
        split
        · rename_i hv
          rw [hv]
          exact Memory.read_of_lt_wfFrom hr (by omega)
        · simp [Memory.read]
      · rename_i h1 h2
        simp only [Memory.read, Ne.symm h2, if_false]
        exact ih hr

/-- A write inside the buffer keeps the canonical form. -/
theorem Memory.write_wfFrom {m : Memory} {lo : Nat} (h : m.wfFrom lo = true) {i : Nat} (hlo : lo ≤ i) (hi : i < 32)
    (v : Byte) : (m.write i v).wfFrom lo = true := by
  induction m generalizing lo with
  | nil => by_cases hv : v = 0#8 <;> simp [Memory.write, Memory.wfFrom, Config.frameLen, hv, hlo, hi]
  | cons c rest ih =>
    obtain ⟨j, b⟩ := c
    have h' := h
    simp only [Memory.wfFrom, Bool.and_eq_true, decide_eq_true_eq] at h'
    obtain ⟨⟨⟨hj, hj32⟩, hb⟩, hr⟩ := h'
    have hi' : i < Config.frameLen := hi
    simp only [Memory.write]
    split
    · rename_i hij
      split
      · exact h
      · rename_i hv
        simp only [Memory.wfFrom, Bool.and_eq_true, decide_eq_true_eq, bne_iff_ne, ne_eq]
        exact ⟨⟨⟨hlo, hi'⟩, hv⟩, ⟨⟨by omega, hj32⟩, by simpa using hb⟩, hr⟩
    · split
      · rename_i hij
        subst hij
        split
        · exact Memory.wfFrom_mono hr (by omega)
        · rename_i hv
          simp only [Memory.wfFrom, Bool.and_eq_true, decide_eq_true_eq, bne_iff_ne, ne_eq]
          exact ⟨⟨⟨hlo, hi'⟩, hv⟩, hr⟩
      · rename_i h1 h2
        simp only [Memory.wfFrom, Bool.and_eq_true, decide_eq_true_eq]
        exact ⟨⟨⟨hj, hj32⟩, hb⟩, ih hr (by omega)⟩

/-- Every write inside the buffer keeps the canonical form. -/
theorem Memory.write_wf {m : Memory} (h : m.wf = true) {i : Nat} (hi : i < 32) (v : Byte) :
    (m.write i v).wf = true :=
  Memory.write_wfFrom h (Nat.zero_le i) hi v

theorem Memory.writeBytes_wf {m : Memory} (h : m.wf = true) {i : Nat} {bs : List Byte} (hi : i + bs.length ≤ 32) :
    (m.writeBytes i bs).wf = true := by
  induction bs generalizing m i with
  | nil => exact h
  | cons b rest ih =>
    simp only [List.length_cons] at hi
    exact ih (Memory.write_wf h (by omega) b) (by omega)

/-- A block write leaves every byte outside the block alone. -/
theorem Memory.read_writeBytes_out (m : Memory) {i a : Nat} (bs : List Byte) (h : a < i ∨ i + bs.length ≤ a) :
    (m.writeBytes i bs).read a = m.read a := by
  induction bs generalizing m i with
  | nil => rfl
  | cons b rest ih =>
    simp only [List.length_cons] at h
    simp only [Memory.writeBytes]
    rw [ih (m.write i b) (by omega), Memory.read_write_ne m b (by omega)]

/-- A block write puts its k-th byte at the k-th index of the block. -/
theorem Memory.read_writeBytes_in {m : Memory} (hm : m.wf = true) {i : Nat} {bs : List Byte} (hi : i + bs.length ≤ 32)
    {k : Nat} (hk : k < bs.length) : (m.writeBytes i bs).read (i + k) = bs[k] := by
  induction bs generalizing m i k with
  | nil => simp at hk
  | cons b rest ih =>
    simp only [List.length_cons] at hi hk
    have hw : (m.write i b).wf = true := Memory.write_wf hm (by omega) b
    simp only [Memory.writeBytes]
    cases k with
    | zero =>
      rw [Memory.read_writeBytes_out _ rest (by omega)]
      exact Memory.read_write_self hm i b
    | succ k =>
      have := ih hw (i := i + 1) (by omega) (k := k) (by omega)
      simpa [Nat.add_assoc, Nat.add_comm 1 k] using this

theorem Memory.eq_of_read_from {m m' : Memory} {lo : Nat} (h : m.wfFrom lo = true) (h' : m'.wfFrom lo = true)
    (hr : ∀ i, m.read i = m'.read i) : m = m' := by
  induction m generalizing m' lo with
  | nil =>
    cases m' with
    | nil => rfl
    | cons c' rest' =>
      obtain ⟨j, b⟩ := c'
      simp only [Memory.wfFrom, Bool.and_eq_true, bne_iff_ne, ne_eq] at h'
      exact absurd (by simpa [Memory.read] using (hr j).symm) h'.1.2
  | cons c rest ih =>
    obtain ⟨i, a⟩ := c
    simp only [Memory.wfFrom, Bool.and_eq_true, bne_iff_ne, ne_eq, decide_eq_true_eq] at h
    cases m' with
    | nil => exact absurd (by simpa [Memory.read] using hr i) h.1.2
    | cons c' rest' =>
      obtain ⟨j, b⟩ := c'
      simp only [Memory.wfFrom, Bool.and_eq_true, bne_iff_ne, ne_eq, decide_eq_true_eq] at h'
      have hij : i = j := by
        rcases Nat.lt_trichotomy i j with hlt | heq | hgt
        · have := hr i
          have hw : Memory.wfFrom j ((j, b) :: rest') = true := by
            simp only [Memory.wfFrom, Bool.and_eq_true, bne_iff_ne, ne_eq, decide_eq_true_eq]
            exact ⟨⟨⟨Nat.le_refl j, h'.1.1.2⟩, h'.1.2⟩, h'.2⟩
          rw [Memory.read_of_lt_wfFrom hw hlt] at this
          exact absurd (by simpa [Memory.read] using this) h.1.2
        · exact heq
        · have := hr j
          have hw : Memory.wfFrom i ((i, a) :: rest) = true := by
            simp only [Memory.wfFrom, Bool.and_eq_true, bne_iff_ne, ne_eq, decide_eq_true_eq]
            exact ⟨⟨⟨Nat.le_refl i, h.1.1.2⟩, h.1.2⟩, h.2⟩
          rw [Memory.read_of_lt_wfFrom hw hgt] at this
          exact absurd (by simpa [Memory.read] using this.symm) h'.1.2
      subst hij
      have hab : a = b := by simpa [Memory.read] using hr i
      subst hab
      congr 1
      refine ih h.2 h'.2 fun k => ?_
      by_cases hk : i = k
      · subst hk
        rw [Memory.read_of_lt_wfFrom h.2 (by omega), Memory.read_of_lt_wfFrom h'.2 (by omega)]
      · simpa [Memory.read, hk] using hr k

/-- The form is canonical: buffers with equal bytes are equal data. -/
theorem Memory.eq_of_read {m m' : Memory} (h : m.wf = true) (h' : m'.wf = true) (hr : ∀ i, m.read i = m'.read i) :
    m = m' :=
  Memory.eq_of_read_from h h' hr

/-- The buffer after reset is in canonical form. -/
theorem State.reset_buf_wf : State.reset.buf.wf = true := rfl

end Sys2Proof.Machine
end

