-- ==== Sys2Proof/Laws/State.lean ====
section
/-! SUPPORT. Every field of State after every shared update: what the update sets, and what it leaves. -/

namespace Sys2Proof.Machine

section
variable (s : State)

@[simp] theorem streamPop_result : (streamPop s).result = s.result := rfl
@[simp] theorem streamPop_busy : (streamPop s).busy = s.busy := rfl
@[simp] theorem streamPop_doneFlag : (streamPop s).doneFlag = s.doneFlag := rfl
@[simp] theorem streamPop_valid : (streamPop s).valid = s.valid := rfl
@[simp] theorem streamPop_transport : (streamPop s).transport = s.transport := rfl
@[simp] theorem streamPop_sra : (streamPop s).sra = s.sra := rfl
@[simp] theorem streamPop_fields : (streamPop s).fields = s.fields := rfl
@[simp] theorem streamPop_buf : (streamPop s).buf = s.buf := rfl
@[simp] theorem streamPop_busReq : (streamPop s).busReq = s.busReq := rfl
@[simp] theorem streamPop_busAns : (streamPop s).busAns = s.busAns := rfl
@[simp] theorem streamPop_phase : (streamPop s).phase = s.phase := rfl
@[simp] theorem streamPop_op : (streamPop s).op = s.op := rfl
@[simp] theorem streamPop_sraL : (streamPop s).sraL = s.sraL := rfl
@[simp] theorem streamPop_disc : (streamPop s).disc = s.disc := rfl
@[simp] theorem streamPop_n : (streamPop s).n = s.n := rfl
@[simp] theorem streamPop_rxq : (streamPop s).rxq = s.rxq.tail := rfl
@[simp] theorem streamPop_hostProg : (streamPop s).hostProg = s.hostProg := rfl
@[simp] theorem streamPop_hostPc : (streamPop s).hostPc = s.hostPc := rfl
@[simp] theorem streamPop_hostLast : (streamPop s).hostLast = s.hostLast := rfl
@[simp] theorem streamPop_agenda : (streamPop s).agenda = s.agenda := rfl
@[simp] theorem streamPop_draws : (streamPop s).draws = s.draws := rfl

end

section
variable (a : BusAddr) (s : State)

@[simp] theorem busProbe_result : (busProbe a s).result = s.result := rfl
@[simp] theorem busProbe_busy : (busProbe a s).busy = s.busy := rfl
@[simp] theorem busProbe_doneFlag : (busProbe a s).doneFlag = s.doneFlag := rfl
@[simp] theorem busProbe_valid : (busProbe a s).valid = s.valid := rfl
@[simp] theorem busProbe_transport : (busProbe a s).transport = s.transport := rfl
@[simp] theorem busProbe_sra : (busProbe a s).sra = s.sra := rfl
@[simp] theorem busProbe_fields : (busProbe a s).fields = s.fields := rfl
@[simp] theorem busProbe_buf : (busProbe a s).buf = s.buf := rfl
@[simp] theorem busProbe_busReq : (busProbe a s).busReq = .probe a := rfl
@[simp] theorem busProbe_busAns : (busProbe a s).busAns = Option.none := rfl
@[simp] theorem busProbe_phase : (busProbe a s).phase = s.phase := rfl
@[simp] theorem busProbe_op : (busProbe a s).op = s.op := rfl
@[simp] theorem busProbe_sraL : (busProbe a s).sraL = s.sraL := rfl
@[simp] theorem busProbe_disc : (busProbe a s).disc = s.disc := rfl
@[simp] theorem busProbe_n : (busProbe a s).n = s.n := rfl
@[simp] theorem busProbe_rxq : (busProbe a s).rxq = s.rxq := rfl
@[simp] theorem busProbe_hostProg : (busProbe a s).hostProg = s.hostProg := rfl
@[simp] theorem busProbe_hostPc : (busProbe a s).hostPc = s.hostPc := rfl
@[simp] theorem busProbe_hostLast : (busProbe a s).hostLast = s.hostLast := rfl
@[simp] theorem busProbe_agenda : (busProbe a s).agenda = s.agenda := rfl
@[simp] theorem busProbe_draws : (busProbe a s).draws = s.draws := rfl

end

section
variable (a : BusAddr) (len : Nat) (s : State)

@[simp] theorem busRead_result : (busRead a len s).result = s.result := rfl
@[simp] theorem busRead_busy : (busRead a len s).busy = s.busy := rfl
@[simp] theorem busRead_doneFlag : (busRead a len s).doneFlag = s.doneFlag := rfl
@[simp] theorem busRead_valid : (busRead a len s).valid = s.valid := rfl
@[simp] theorem busRead_transport : (busRead a len s).transport = s.transport := rfl
@[simp] theorem busRead_sra : (busRead a len s).sra = s.sra := rfl
@[simp] theorem busRead_fields : (busRead a len s).fields = s.fields := rfl
@[simp] theorem busRead_buf : (busRead a len s).buf = s.buf := rfl
@[simp] theorem busRead_busReq : (busRead a len s).busReq = .read a len := rfl
@[simp] theorem busRead_busAns : (busRead a len s).busAns = Option.none := rfl
@[simp] theorem busRead_phase : (busRead a len s).phase = s.phase := rfl
@[simp] theorem busRead_op : (busRead a len s).op = s.op := rfl
@[simp] theorem busRead_sraL : (busRead a len s).sraL = s.sraL := rfl
@[simp] theorem busRead_disc : (busRead a len s).disc = s.disc := rfl
@[simp] theorem busRead_n : (busRead a len s).n = s.n := rfl
@[simp] theorem busRead_rxq : (busRead a len s).rxq = s.rxq := rfl
@[simp] theorem busRead_hostProg : (busRead a len s).hostProg = s.hostProg := rfl
@[simp] theorem busRead_hostPc : (busRead a len s).hostPc = s.hostPc := rfl
@[simp] theorem busRead_hostLast : (busRead a len s).hostLast = s.hostLast := rfl
@[simp] theorem busRead_agenda : (busRead a len s).agenda = s.agenda := rfl
@[simp] theorem busRead_draws : (busRead a len s).draws = s.draws := rfl

end

section
variable (p : Phase) (s : State)

@[simp] theorem toPhase_result : (toPhase p s).result = s.result := rfl
@[simp] theorem toPhase_busy : (toPhase p s).busy = s.busy := rfl
@[simp] theorem toPhase_doneFlag : (toPhase p s).doneFlag = s.doneFlag := rfl
@[simp] theorem toPhase_valid : (toPhase p s).valid = s.valid := rfl
@[simp] theorem toPhase_transport : (toPhase p s).transport = s.transport := rfl
@[simp] theorem toPhase_sra : (toPhase p s).sra = s.sra := rfl
@[simp] theorem toPhase_fields : (toPhase p s).fields = s.fields := rfl
@[simp] theorem toPhase_buf : (toPhase p s).buf = s.buf := rfl
@[simp] theorem toPhase_busReq : (toPhase p s).busReq = s.busReq := rfl
@[simp] theorem toPhase_busAns : (toPhase p s).busAns = s.busAns := rfl
@[simp] theorem toPhase_phase : (toPhase p s).phase = p := rfl
@[simp] theorem toPhase_op : (toPhase p s).op = s.op := rfl
@[simp] theorem toPhase_sraL : (toPhase p s).sraL = s.sraL := rfl
@[simp] theorem toPhase_disc : (toPhase p s).disc = s.disc := rfl
@[simp] theorem toPhase_n : (toPhase p s).n = s.n := rfl
@[simp] theorem toPhase_rxq : (toPhase p s).rxq = s.rxq := rfl
@[simp] theorem toPhase_hostProg : (toPhase p s).hostProg = s.hostProg := rfl
@[simp] theorem toPhase_hostPc : (toPhase p s).hostPc = s.hostPc := rfl
@[simp] theorem toPhase_hostLast : (toPhase p s).hostLast = s.hostLast := rfl
@[simp] theorem toPhase_agenda : (toPhase p s).agenda = s.agenda := rfl
@[simp] theorem toPhase_draws : (toPhase p s).draws = s.draws := rfl

end

section
variable (t : Transport) (s : State)

@[simp] theorem bind_result : (bind t s).result = s.result := rfl
@[simp] theorem bind_busy : (bind t s).busy = s.busy := rfl
@[simp] theorem bind_doneFlag : (bind t s).doneFlag = s.doneFlag := rfl
@[simp] theorem bind_valid : (bind t s).valid = s.valid := rfl
@[simp] theorem bind_transport : (bind t s).transport = t := rfl
@[simp] theorem bind_sra : (bind t s).sra = s.sra := rfl
@[simp] theorem bind_fields : (bind t s).fields = s.fields := rfl
@[simp] theorem bind_buf : (bind t s).buf = s.buf := rfl
@[simp] theorem bind_busReq : (bind t s).busReq = s.busReq := rfl
@[simp] theorem bind_busAns : (bind t s).busAns = s.busAns := rfl
@[simp] theorem bind_phase : (bind t s).phase = s.phase := rfl
@[simp] theorem bind_op : (bind t s).op = s.op := rfl
@[simp] theorem bind_sraL : (bind t s).sraL = s.sraL := rfl
@[simp] theorem bind_disc : (bind t s).disc = s.disc := rfl
@[simp] theorem bind_n : (bind t s).n = s.n := rfl
@[simp] theorem bind_rxq : (bind t s).rxq = s.rxq := rfl
@[simp] theorem bind_hostProg : (bind t s).hostProg = s.hostProg := rfl
@[simp] theorem bind_hostPc : (bind t s).hostPc = s.hostPc := rfl
@[simp] theorem bind_hostLast : (bind t s).hostLast = s.hostLast := rfl
@[simp] theorem bind_agenda : (bind t s).agenda = s.agenda := rfl
@[simp] theorem bind_draws : (bind t s).draws = s.draws := rfl

end

section
variable (i : Instr) (s : State)

@[simp] theorem accept_result : (accept i s).result = .none := rfl
@[simp] theorem accept_busy : (accept i s).busy = true := rfl
@[simp] theorem accept_doneFlag : (accept i s).doneFlag = false := rfl
@[simp] theorem accept_valid : (accept i s).valid = s.valid := rfl
@[simp] theorem accept_transport : (accept i s).transport = s.transport := rfl
@[simp] theorem accept_sra : (accept i s).sra = s.sra := rfl
@[simp] theorem accept_fields : (accept i s).fields = s.fields := rfl
@[simp] theorem accept_buf : (accept i s).buf = s.buf := rfl
@[simp] theorem accept_busReq : (accept i s).busReq = s.busReq := rfl
@[simp] theorem accept_busAns : (accept i s).busAns = s.busAns := rfl
@[simp] theorem accept_phase : (accept i s).phase = .dispatch := rfl
@[simp] theorem accept_op : (accept i s).op = i := rfl
@[simp] theorem accept_sraL : (accept i s).sraL = s.sraL := rfl
@[simp] theorem accept_disc : (accept i s).disc = s.disc := rfl
@[simp] theorem accept_n : (accept i s).n = s.n := rfl
@[simp] theorem accept_rxq : (accept i s).rxq = s.rxq := rfl
@[simp] theorem accept_hostProg : (accept i s).hostProg = s.hostProg := rfl
@[simp] theorem accept_hostPc : (accept i s).hostPc = s.hostPc := rfl
@[simp] theorem accept_hostLast : (accept i s).hostLast = s.hostLast := rfl
@[simp] theorem accept_agenda : (accept i s).agenda = s.agenda := rfl
@[simp] theorem accept_draws : (accept i s).draws = s.draws := rfl

end

section
variable (s : State)

@[simp] theorem startDecode_result : (startDecode s).result = s.result := rfl
@[simp] theorem startDecode_busy : (startDecode s).busy = s.busy := rfl
@[simp] theorem startDecode_doneFlag : (startDecode s).doneFlag = s.doneFlag := rfl
@[simp] theorem startDecode_valid : (startDecode s).valid = false := rfl
@[simp] theorem startDecode_transport : (startDecode s).transport = s.transport := rfl
@[simp] theorem startDecode_sra : (startDecode s).sra = s.sra := rfl
@[simp] theorem startDecode_fields : (startDecode s).fields = s.fields := rfl
@[simp] theorem startDecode_buf : (startDecode s).buf = Memory.cleared := rfl
@[simp] theorem startDecode_busReq : (startDecode s).busReq = s.busReq := rfl
@[simp] theorem startDecode_busAns : (startDecode s).busAns = s.busAns := rfl
@[simp] theorem startDecode_phase : (startDecode s).phase = s.phase := rfl
@[simp] theorem startDecode_op : (startDecode s).op = s.op := rfl
@[simp] theorem startDecode_sraL : (startDecode s).sraL = s.sra := rfl
@[simp] theorem startDecode_disc : (startDecode s).disc = 0 := rfl
@[simp] theorem startDecode_n : (startDecode s).n = 0 := rfl
@[simp] theorem startDecode_rxq : (startDecode s).rxq = s.rxq := rfl
@[simp] theorem startDecode_hostProg : (startDecode s).hostProg = s.hostProg := rfl
@[simp] theorem startDecode_hostPc : (startDecode s).hostPc = s.hostPc := rfl
@[simp] theorem startDecode_hostLast : (startDecode s).hostLast = s.hostLast := rfl
@[simp] theorem startDecode_agenda : (startDecode s).agenda = s.agenda := rfl
@[simp] theorem startDecode_draws : (startDecode s).draws = s.draws := rfl

end

section
variable (code : ResultCode) (f : Reading) (s : State)

@[simp] theorem finish_result : (finish code f s).result = code := rfl
@[simp] theorem finish_busy : (finish code f s).busy = false := rfl
@[simp] theorem finish_doneFlag : (finish code f s).doneFlag = true := rfl
@[simp] theorem finish_valid : (finish code f s).valid = validAtFinish code s := rfl
@[simp] theorem finish_transport : (finish code f s).transport = s.transport := rfl
@[simp] theorem finish_sra : (finish code f s).sra = s.sra := rfl
@[simp] theorem finish_fields : (finish code f s).fields = fieldsAtFinish code f s := rfl
@[simp] theorem finish_buf : (finish code f s).buf = s.buf := rfl
@[simp] theorem finish_busReq : (finish code f s).busReq = .none := rfl
@[simp] theorem finish_busAns : (finish code f s).busAns = Option.none := rfl
@[simp] theorem finish_phase : (finish code f s).phase = .idle := rfl
@[simp] theorem finish_op : (finish code f s).op = s.op := rfl
@[simp] theorem finish_sraL : (finish code f s).sraL = s.sraL := rfl
@[simp] theorem finish_disc : (finish code f s).disc = s.disc := rfl
@[simp] theorem finish_n : (finish code f s).n = s.n := rfl
@[simp] theorem finish_rxq : (finish code f s).rxq = s.rxq := rfl
@[simp] theorem finish_hostProg : (finish code f s).hostProg = s.hostProg := rfl
@[simp] theorem finish_hostPc : (finish code f s).hostPc = s.hostPc := rfl
@[simp] theorem finish_hostLast : (finish code f s).hostLast = s.hostLast := rfl
@[simp] theorem finish_agenda : (finish code f s).agenda = s.agenda := rfl
@[simp] theorem finish_draws : (finish code f s).draws = s.draws := rfl

end

end Sys2Proof.Machine
end

