-- ==== Sys2Proof/Laws/Exec.lean ====
section
/-! SUPPORT. What a command's move can do: one lemma for each shared operation and each command, saying every next state it
can answer. -/

namespace Sys2Proof.Machine

/-- A command's move is its acceptance by an idle FBS or an Engine step of the operation in flight. -/
theorem commandMove_next {i : Instr} {a : State → State} {e : State → Outcome} {s t : State}
    (h : commandMove i a e s = .next t) :
    (s.busy = false ∧ t = a s) ∨ (s.busy = true ∧ s.op = i ∧ e s = .next t) := by
  unfold commandMove at h
  split at h
  · rename_i hb
    exact .inl ⟨hb, by injection h with h; exact h.symm⟩
  · rename_i hb
    split at h
    · rename_i hi
      exact .inr ⟨by simpa using hb, hi, h⟩
    · cases h

theorem commandMove_idle {i : Instr} {a : State → State} {e : State → Outcome} {s : State} (h : s.busy = false) :
    commandMove i a e s = .next (a s) := by
  simp [commandMove, h]

theorem commandMove_running {i : Instr} {a : State → State} {e : State → Outcome} {s : State} (h : s.busy = true)
    (hi : s.op = i) : commandMove i a e s = e s := by
  simp [commandMove, h, hi]

/-- The Engine of ATTACH_BUS: the probe, one of the two answers taken, or no step. -/
theorem attachBusEngine_next {s t : State} (h : attachBusEngine s = .next t) :
    (s.phase = .dispatch ∧ t = attachBusDispatch s) ∨
    (s.phase = .probeWait ∧ s.busAns = some .ack ∧ t = finishWith .ok (bind .bus s)) ∨
    (s.phase = .probeWait ∧ s.busAns = some .nack ∧ t = finishWith .deviceNotFound s) ∨
    (s.phase ≠ .dispatch ∧ t = s) := by
  unfold attachBusEngine at h
  split at h <;> rename_i hp <;> injection h with h <;> subst h
  · exact .inl ⟨hp, rfl⟩
  · simp only [attachBusProbed]
    split <;> simp_all
  all_goals exact .inr (.inr (.inr ⟨by simp [hp], rfl⟩))

/-- The Engine of ATTACH_STREAM: the binding, or no step. -/
theorem attachStreamEngine_next {s t : State} (h : attachStreamEngine s = .next t) :
    (s.phase = .dispatch ∧ t = attachStreamDispatch s) ∨ (s.phase ≠ .dispatch ∧ t = s) := by
  unfold attachStreamEngine at h
  split at h <;> rename_i hp <;> injection h with h <;> subst h
  · exact .inl ⟨hp, rfl⟩
  all_goals exact .inr ⟨by simp [hp], rfl⟩

/-- One FILL step that answers: a wait on an empty queue, or the head byte stored. -/
theorem decodeFill_next {s t : State} (h : decodeFill s = .next t) :
    (s.rxq = [] ∧ t = s) ∨ (∃ b rest, s.rxq = b :: rest ∧ s.n < 32 ∧ t = fillNext (storeHead b s)) := by
  unfold decodeFill streamPeek at h
  cases hq : s.rxq with
  | nil => simp only [hq, List.head?_nil] at h; injection h with h; exact .inl ⟨rfl, h.symm⟩
  | cons b rest =>
    simp only [hq, List.head?_cons] at h
    split at h
    · rename_i hn
      injection h with h
      exact .inr ⟨b, rest, rfl, hn, h.symm⟩
    · cases h

/-- The Engine of DECODE, by phase. -/
theorem decodeEngine_next {s t : State} (h : decodeEngine s = .next t) :
    (s.phase = .dispatch ∧ t = decodeDispatch s) ∨ (s.phase = .busWait ∧ t = decodeBusAnswered s) ∨
    (s.phase = .scan ∧ t = decodeScan s) ∨ (s.phase = .fill ∧ decodeFill s = .next t) ∨
    (s.phase = .check ∧ t = decodeCheck s) ∨ ((s.phase = .idle ∨ s.phase = .probeWait) ∧ t = s) := by
  unfold decodeEngine at h
  split at h <;> rename_i hp <;> simp only [hp, reduceCtorEq, false_and, true_and, false_or, or_false, or_true]
  case h_4 => exact h
  all_goals injection h with h; exact h.symm

/-- Every next state an Engine step of DECODE can answer, one case for each way (R121, R123, R132-R135, R160). -/
inductive DecodeCase (s t : State) : Prop
  | unbound (hp : s.phase = .dispatch) (hb : s.transport = .unbound) (ht : t = finish .transportError noReading s)
  | busRequest (hp : s.phase = .dispatch) (hb : s.transport = .bus)
      (ht : t = toPhase .busWait (busRead Config.busAddr Config.busReadLen s))
  | noData (hp : s.phase = .dispatch) (hb : s.transport = .stream) (hq : s.rxq = [])
      (ht : t = finish .noData noReading s)
  | scanStart (hp : s.phase = .dispatch) (hb : s.transport = .stream) (hq : s.rxq ≠ []) (ht : t = toPhase .scan s)
  | busData (d : Vector Byte 32) (hp : s.phase = .busWait) (ha : s.busAns = some (.data d))
      (ht : t = toPhase .check (loadAnswer d s))
  | busFail (hp : s.phase = .busWait) (ha : s.busAns = some .fail) (ht : t = finish .transportError noReading s)
  | exhaustedFail (hp : s.phase = .scan) (hq : s.rxq = []) (hl : s.sraL = false)
      (ht : t = finish .framingError noReading s)
  | exhaustedFill (hp : s.phase = .scan) (hq : s.rxq = []) (hl : s.sraL = true) (ht : t = toPhase .fill s)
  | marker (rest : List Byte) (hp : s.phase = .scan) (hq : s.rxq = Config.hdr0 :: rest) (ht : t = toPhase .fill s)
  | bound (hp : s.phase = .scan) (hd : s.disc = 32) (ht : t = finish .framingError noReading s)
  | discard (b : Byte) (rest : List Byte) (hp : s.phase = .scan) (hq : s.rxq = b :: rest) (hb : b ≠ Config.hdr0)
      (hd : s.disc ≠ 32) (ht : t = discardHead s)
  | store (b : Byte) (rest : List Byte) (hp : s.phase = .fill) (hq : s.rxq = b :: rest) (hn : s.n < 32)
      (ht : t = fillNext (storeHead b s))
  | check (hp : s.phase = .check) (ht : t = decodeCheck s)
  | wait (ht : t = s)

/-- The inversion of an Engine step of DECODE: cite this instead of unfolding `decodeEngine`. -/
theorem decodeEngine_cases {s t : State} (h : decodeEngine s = .next t) : DecodeCase s t := by
  rcases decodeEngine_next h with ⟨hp, rfl⟩ | ⟨hp, rfl⟩ | ⟨hp, rfl⟩ | ⟨hp, hf⟩ | ⟨hp, rfl⟩ | ⟨_, rfl⟩
  · cases hb : s.transport
    · exact .unbound hp hb (by simp [decodeDispatch, hb, finishWith])
    · exact .busRequest hp hb (by simp [decodeDispatch, hb])
    · by_cases hq : s.rxq = []
      · exact .noData hp hb hq (by simp [decodeDispatch, hb, streamCount, hq, finishWith])
      · exact .scanStart hp hb hq (by simp [decodeDispatch, hb, streamCount, hq])
  · unfold decodeBusAnswered
    split
    · exact .busData _ hp ‹_› rfl
    · exact .busFail hp ‹_› rfl
    all_goals exact .wait rfl
  · unfold decodeScan streamPeek
    cases hq : s.rxq with
    | nil =>
      simp only [List.head?_nil, exhausted]
      split
      · exact .exhaustedFail hp hq ‹_› rfl
      · exact .exhaustedFill hp hq (by simp_all) rfl
    | cons b rest =>
      simp only [List.head?_cons]
      split
      · rename_i hb
        exact .marker rest hp (by rw [hq, hb]) rfl
      · split
        · exact .bound hp ‹_› rfl
        · exact .discard b rest hp hq ‹_› ‹_› rfl
  · rcases decodeFill_next hf with ⟨_, rfl⟩ | ⟨b, rest, hq, hn, rfl⟩
    · exact .wait rfl
    · exact .store b rest hp hq hn rfl
  · exact .check hp rfl
  · exact .wait rfl

/-- What FBS's next move for a command can be. -/
theorem exec_next {i : Instr} {s t : State} (h : exec i s = .next t) :
    (s.busy = false ∧ i ≠ .decode ∧ t = accept i s) ∨
    (s.busy = false ∧ i = .decode ∧ t = accept .decode (startDecode s)) ∨
    (s.busy = true ∧ s.op = i ∧ i = .attachBus ∧ attachBusEngine s = .next t) ∨
    (s.busy = true ∧ s.op = i ∧ i = .attachStream ∧ attachStreamEngine s = .next t) ∨
    (s.busy = true ∧ s.op = i ∧ i = .decode ∧ decodeEngine s = .next t) := by
  cases i <;>
    simp only [exec, execAttachBus, execAttachStream, execDecode] at h <;>
    rcases commandMove_next h with ⟨hb, ht⟩ | ⟨hb, hi, he⟩ <;> simp_all

/-- No move of a command is refused. -/
theorem exec_not_refused (i : Instr) (s : State) (r : Refusal) : exec i s ≠ .refused r := by
  have key : ∀ (i : Instr) (a : State → State) (e : State → Outcome), e s ≠ .refused r →
      commandMove i a e s ≠ .refused r := by
    intro i a e he
    unfold commandMove
    split
    · simp
    · split
      · exact he
      · simp
  cases i
  · exact key _ _ _ (by unfold attachBusEngine; split <;> simp)
  · exact key _ _ _ (by unfold attachStreamEngine; split <;> simp)
  · refine key .decode (fun s => accept .decode (startDecode s)) decodeEngine ?_
    unfold decodeEngine
    split <;> try simp
    unfold decodeFill
    split
    · simp
    · split <;> simp

end Sys2Proof.Machine
end

