-- ==== Sys2Proof/Laws/Operands.lean ====
section
/-! SUPPORT. Frame bytes as numbers: the accumulator's running sum and the value of a big-endian pair; and what completion
does for each operation. -/

namespace Sys2Proof.Machine

/-- The accumulator run from any value is the exact sum modulo 2^16 (R164(d)). -/
theorem foldl_accumulate_toNat (bs : List Byte) (acc : Word) :
    (bs.foldl accumulate acc).toNat = (acc.toNat + (bs.map BitVec.toNat).sum) % 65536 := by
  induction bs generalizing acc with
  | nil =>
    have := acc.isLt
    simp only [List.foldl_nil, List.map_nil, List.sum_nil]
    omega
  | cons b rest ih =>
    have hb := b.isLt
    have ha := acc.isLt
    have : (accumulate acc b).toNat = (acc.toNat + b.toNat) % 65536 := by
      simp [accumulate, BitVec.toNat_add, Nat.mod_eq_of_lt (show b.toNat < 65536 by omega)]
    simp only [List.foldl_cons, ih, this, List.map_cons, List.sum_cons]
    omega

/-- A sum of bytes is at most 255 for each. -/
theorem sum_map_toNat_le (bs : List Byte) : (bs.map BitVec.toNat).sum ≤ 255 * bs.length := by
  induction bs with
  | nil => simp
  | cons b rest ih =>
    have := b.isLt
    simp only [List.map_cons, List.sum_cons, List.length_cons]
    omega

/-- A big-endian pair's value: 256 times the first byte plus the second (R51). -/
theorem bigEndian_toNat (hi lo : Byte) : (bigEndian hi lo).toNat = 256 * hi.toNat + lo.toNat := by
  have := lo.isLt
  have key : (bigEndian hi lo).toNat = hi.toNat <<< 8 ||| lo.toNat := BitVec.toNat_append hi lo
  rw [key, ← Nat.shiftLeft_add_eq_or_of_lt (by simpa using this), Nat.shiftLeft_eq]
  omega

/-- Field k of an unpacked buffer, as its pair of bytes (R166). -/
theorem unpack_getElem (m : Memory) (k : Nat) (hk : k < 15) : (unpack m)[k] = fieldOf m k := by
  simp [unpack]

@[simp] theorem fieldsAtFinish_attach {code : ResultCode} {f : Reading} {s : State} (h : s.op ≠ .decode) :
    fieldsAtFinish code f s = s.fields := by
  simp [fieldsAtFinish, h]

@[simp] theorem fieldsAtFinish_ok {f : Reading} {s : State} (h : s.op = .decode) : fieldsAtFinish .ok f s = f := by
  simp [fieldsAtFinish, h]

@[simp] theorem fieldsAtFinish_error {code : ResultCode} {f : Reading} {s : State} (h : s.op = .decode)
    (hc : code ≠ .ok) : fieldsAtFinish code f s = noReading := by
  simp [fieldsAtFinish, h, hc]

@[simp] theorem validAtFinish_attach {code : ResultCode} {s : State} (h : s.op ≠ .decode) :
    validAtFinish code s = s.valid := by
  simp [validAtFinish, h]

@[simp] theorem validAtFinish_decode {code : ResultCode} {s : State} (h : s.op = .decode) :
    validAtFinish code s = decide (code = .ok) := by
  simp [validAtFinish, h]

end Sys2Proof.Machine
end

