-- ==== Sys2Proof/Laws/Step.lean ====
section
/-! SUPPORT. What one step can do: the move taken, and every next state each agent's move can answer. -/

namespace Sys2Proof.Machine

section
variable (s : State)

@[simp] theorem takeEvent_result : (takeEvent s).result = s.result := by unfold takeEvent; split <;> rfl
@[simp] theorem takeEvent_busy : (takeEvent s).busy = s.busy := by unfold takeEvent; split <;> rfl
@[simp] theorem takeEvent_doneFlag : (takeEvent s).doneFlag = s.doneFlag := by unfold takeEvent; split <;> rfl
@[simp] theorem takeEvent_valid : (takeEvent s).valid = s.valid := by unfold takeEvent; split <;> rfl
@[simp] theorem takeEvent_transport : (takeEvent s).transport = s.transport := by unfold takeEvent; split <;> rfl
@[simp] theorem takeEvent_sra : (takeEvent s).sra = s.sra := by unfold takeEvent; split <;> rfl
@[simp] theorem takeEvent_fields : (takeEvent s).fields = s.fields := by unfold takeEvent; split <;> rfl
@[simp] theorem takeEvent_buf : (takeEvent s).buf = s.buf := by unfold takeEvent; split <;> rfl
@[simp] theorem takeEvent_busReq : (takeEvent s).busReq = s.busReq := by unfold takeEvent; split <;> rfl
@[simp] theorem takeEvent_busAns : (takeEvent s).busAns = s.busAns := by unfold takeEvent; split <;> rfl
@[simp] theorem takeEvent_phase : (takeEvent s).phase = s.phase := by unfold takeEvent; split <;> rfl
@[simp] theorem takeEvent_op : (takeEvent s).op = s.op := by unfold takeEvent; split <;> rfl
@[simp] theorem takeEvent_sraL : (takeEvent s).sraL = s.sraL := by unfold takeEvent; split <;> rfl
@[simp] theorem takeEvent_disc : (takeEvent s).disc = s.disc := by unfold takeEvent; split <;> rfl
@[simp] theorem takeEvent_n : (takeEvent s).n = s.n := by unfold takeEvent; split <;> rfl
@[simp] theorem takeEvent_rxq : (takeEvent s).rxq = s.rxq := by unfold takeEvent; split <;> rfl
@[simp] theorem takeEvent_hostProg : (takeEvent s).hostProg = s.hostProg := by unfold takeEvent; split <;> rfl
@[simp] theorem takeEvent_hostPc : (takeEvent s).hostPc = s.hostPc := by unfold takeEvent; split <;> rfl
@[simp] theorem takeEvent_hostLast : (takeEvent s).hostLast = s.hostLast := by unfold takeEvent; split <;> rfl

end

theorem step_eq_of_agenda {s : State} {e : Event} {rest : List Event} (h : s.agenda = e :: rest) :
    step s = agentStep e { s with agenda := rest } := by
  simp [step, nextEvent, takeEvent, h]

/-- What a write to CMD can answer: nothing done for a reserved word, or an idle FBS accepts a command. -/
theorem commandWrite_next {w : Word} {s t : State} (h : commandWrite w s = .next t) :
    s.busy = false ∧ (t = s ∨ ∃ i, decodeWord w = .ok i ∧ exec i s = .next t) := by
  unfold commandWrite at h
  split at h
  · cases h
  · rename_i hb
    refine ⟨by simpa using hb, ?_⟩
    split at h
    · rename_i i hi
      exact .inr ⟨i, hi, h⟩
    · injection h with h
      exact .inl h.symm

theorem regAt_cmd {a : RegAddr} (h : regAt a = .cmd) : a = cmdAddr := by
  unfold regAt at h
  split at h
  · assumption
  · split at h <;> try cases h
    split at h <;> try cases h
    split at h <;> cases h

theorem regAt_config {a : RegAddr} (h : regAt a = .config) : a = configAddr := by
  unfold regAt at h
  split at h <;> try cases h
  split at h <;> try cases h
  split at h
  · assumption
  · split at h <;> cases h

/-- What a host write can answer: CMD's effect, CONFIG's, or none. -/
theorem hostWrite_next {a : RegAddr} {w : Word} {s t : State} (h : hostWrite a w s = .next t) :
    (a = cmdAddr ∧ commandWrite w s = .next t) ∨ (a = configAddr ∧ t = { s with sra := w.getLsbD 0 }) ∨ t = s := by
  unfold hostWrite at h
  split at h
  · rename_i ha
    exact .inl ⟨regAt_cmd ha, h⟩
  · rename_i ha
    injection h with h
    exact .inr (.inl ⟨regAt_config ha, h.symm⟩)
  all_goals injection h with h; exact .inr (.inr h.symm)

/-- What the Host's step can answer: an accepted command, a CONFIG write, or a change of the Host's own registers only. -/
theorem hostStep_next {s t : State} (h : hostStep s = .next t) :
    (∃ w i, s.hostProg[s.hostPc]? = some (hostWr cmdAddr w) ∧ s.busy = false ∧ decodeWord w = .ok i ∧
      exec i { s with hostPc := s.hostPc + 1 } = .next t) ∨
    (∃ w, s.hostProg[s.hostPc]? = some (hostWr configAddr w) ∧
      t = { s with hostPc := s.hostPc + 1, sra := w.getLsbD 0 }) ∨
    (∃ pc last, t = { s with hostPc := pc, hostLast := last }) := by
  unfold hostStep at h
  split at h
  · injection h with h
    exact .inr (.inr ⟨s.hostPc, s.hostLast, by rw [← h]⟩)
  · rename_i a ha
    unfold hostAccess at h
    split at h
    · cases h
    · rename_i hw
      have hw : a.width = 16 := by simpa using hw
      split at h
      · rename_i hd
        have hline : ∀ x, a.addr = x → a = { width := 16, write := true, addr := x, value := a.value } := by
          intro x hx
          cases a
          simp_all
        rcases hostWrite_next h with ⟨hx, hc⟩ | ⟨hx, ht⟩ | ht
        · obtain ⟨hb, ht | ⟨i, hi, he⟩⟩ := commandWrite_next hc
          · exact .inr (.inr ⟨s.hostPc + 1, s.hostLast, by rw [ht]⟩)
          · exact .inl ⟨a.value, i, by rw [ha, hline _ hx]; rfl, hb, hi, he⟩
        · exact .inr (.inl ⟨a.value, by rw [ha, hline _ hx]; rfl, by rw [ht]⟩)
        · exact .inr (.inr ⟨s.hostPc + 1, s.hostLast, by rw [ht]⟩)
      · injection h with h
        exact .inr (.inr ⟨_, _, by rw [← h]⟩)
  · injection h with h
    exact .inr (.inr ⟨_, _, by rw [← h]⟩)

/-- What the Engine's step can answer: nothing while idle, else the move of the operation in flight. -/
theorem engineStep_next {s t : State} (h : engineStep s = .next t) :
    (s.busy = false ∧ t = s) ∨ (s.busy = true ∧ exec s.op s = .next t) := by
  unfold engineStep at h
  split at h
  · rename_i hb
    exact .inr ⟨hb, h⟩
  · rename_i hb
    injection h with h
    exact .inl ⟨by simpa using hb, h.symm⟩

/-- EndRead: the short transfer of a waiting fill, or nothing. -/
theorem endRead_cases (s : State) :
    (s.phase = .fill ∧ s.n < 32 ∧ s.rxq = [] ∧ endRead s = shortTransfer s) ∨ endRead s = s := by
  unfold endRead
  split
  · rename_i h
    exact .inl ⟨h.1, h.2.1, List.length_eq_zero_iff.mp h.2.2, rfl⟩
  · exact .inr rfl

/-- The BusTarget: an answer of its kind to the unanswered request, or nothing. -/
theorem busTarget_cases (r : BusAnswer) (s : State) :
    (s.busAns = none ∧ answersReq r s.busReq = true ∧ busTarget r s = { s with busAns := some r }) ∨
    busTarget r s = s := by
  unfold busTarget
  split
  · rename_i h
    exact .inl ⟨h.1, h.2, rfl⟩
  · exact .inr rfl

/-- Every next state one agent's move can answer, one case for each way (R9). `s` is the state the move is taken in. -/
inductive MoveCase (e : Event) (s t : State) : Prop
  | accept (w : Word) (i : Instr) (he : e = .host) (hl : s.hostProg[s.hostPc]? = some (hostWr cmdAddr w))
      (hb : s.busy = false) (hd : i ≠ .decode) (ht : t = Machine.accept i { s with hostPc := s.hostPc + 1 })
  | acceptDecode (w : Word) (he : e = .host) (hl : s.hostProg[s.hostPc]? = some (hostWr cmdAddr w))
      (hb : s.busy = false) (ht : t = Machine.accept .decode (startDecode { s with hostPc := s.hostPc + 1 }))
  | config (w : Word) (he : e = .host) (hl : s.hostProg[s.hostPc]? = some (hostWr configAddr w))
      (ht : t = { s with hostPc := s.hostPc + 1, sra := w.getLsbD 0 })
  | hostOnly (pc : Nat) (last : Word) (he : e = .host) (ht : t = { s with hostPc := pc, hostLast := last })
  | attachBus (he : e = .engine) (hb : s.busy = true) (ho : s.op = .attachBus) (h : attachBusEngine s = .next t)
  | attachStream (he : e = .engine) (hb : s.busy = true) (ho : s.op = .attachStream) (h : attachStreamEngine s = .next t)
  | decode (he : e = .engine) (hb : s.busy = true) (ho : s.op = .decode) (h : decodeEngine s = .next t)
  | append (b : Byte) (he : e = .append b) (ht : t = streamAppend b s)
  | short (he : e = .endRead) (hp : s.phase = .fill) (hn : s.n < 32) (hq : s.rxq = []) (ht : t = shortTransfer s)
  | answer (r : BusAnswer) (he : e = .busAnswer r) (ha : s.busAns = none) (hr : answersReq r s.busReq = true)
      (ht : t = { s with busAns := some r })
  | reset (he : e = .reset) (ht : t = fbsReset s)
  | nothing (he : e ≠ .reset) (ht : t = s)

/-- The inversion of one agent's move: cite this instead of unfolding `agentStep`. -/
theorem agentStep_next {e : Event} {s t : State} (h : agentStep e s = .next t) : MoveCase e s t := by
  cases e <;> simp only [agentStep] at h
  · rcases hostStep_next h with ⟨w, i, hl, hb, _, he⟩ | ⟨w, hl, ht⟩ | ⟨pc, last, ht⟩
    · rcases exec_next he with ⟨_, hd, ht⟩ | ⟨_, _, ht⟩ | ⟨hb', _⟩ | ⟨hb', _⟩ | ⟨hb', _⟩
      · exact .accept w i rfl hl hb hd ht
      · exact .acceptDecode w rfl hl hb ht
      all_goals simp [hb] at hb'
    · exact .config w rfl hl ht
    · exact .hostOnly pc last rfl ht
  · rcases engineStep_next h with ⟨_, rfl⟩ | ⟨hb, he⟩
    · exact .nothing (by simp) rfl
    · rcases exec_next he with ⟨hb', _⟩ | ⟨hb', _⟩ | ⟨_, _, ho, h⟩ | ⟨_, _, ho, h⟩ | ⟨_, _, ho, h⟩
      · simp [hb] at hb'
      · simp [hb] at hb'
      · exact .attachBus rfl hb ho h
      · exact .attachStream rfl hb ho h
      · exact .decode rfl hb ho h
  · injection h with h
    exact .append _ rfl h.symm
  · injection h with h
    rcases endRead_cases s with ⟨hp, hn, hq, he⟩ | he
    · exact .short rfl hp hn hq (by rw [← h, he])
    · exact .nothing (by simp) (by rw [← h, he])
  · injection h with h
    rename_i r
    rcases busTarget_cases r s with ⟨ha, hr, he⟩ | he
    · exact .answer r rfl ha hr (by rw [← h, he])
    · exact .nothing (by simp) (by rw [← h, he])
  · injection h with h
    exact .reset rfl h.symm
  · unfold foreignPop at h
    split at h
    · injection h with h
      exact .nothing (by simp) h.symm
    · cases h

/-- The inversion of a step: one agent's move, taken in `takeEvent s`. -/
theorem step_next {s t : State} (h : step s = .next t) : MoveCase (nextEvent s) (takeEvent s) t :=
  agentStep_next h

end Sys2Proof.Machine
end

