-- ==== Sys2Proof/Laws/Operation.lean ====
section
/-! SUPPORT. Laws of coherent idle states and of two machines in the same operation. -/

namespace Sys2Proof.Machine

/-- A coherent idle FBS has no request outstanding and no answer to one (R29, R233). -/
theorem ControlInv.idle_no_request {s : State} (h : ControlInv s) (hb : s.busy = false) :
    s.busReq = .none ∧ s.busAns = none := by
  have hp : s.phase = .idle := by simpa [hb] using h.busy_iff
  have hq : s.busReq = .none := by simpa [hp, reqOfPhase] using h.req
  refine ⟨hq, ?_⟩
  cases ha : s.busAns with
  | none => rfl
  | some r => have := h.answer r ha; rw [hq] at this; cases r <;> simp [answersReq] at this

theorem SameOperation.refl (s : State) : SameOperation s s :=
  ⟨rfl, rfl, rfl, rfl, rfl, rfl, rfl, rfl, rfl, rfl, rfl, rfl, rfl, rfl, rfl, fun _ => rfl⟩

/-- Two machines in the same operation differ in the FIELDs, the Host and the moves to come only. -/
theorem SameOperation.eq_with {s₁ s₂ : State} (h : SameOperation s₁ s₂) :
    s₂ = { s₁ with
      fields := s₂.fields, hostProg := s₂.hostProg, hostPc := s₂.hostPc, hostLast := s₂.hostLast, agenda := s₂.agenda,
      draws := s₂.draws } := by
  cases h; cases s₁; cases s₂; simp_all

/-- Taking the next move keeps two machines in the same operation. -/
theorem SameOperation.take {s₁ s₂ : State} (h : SameOperation s₁ s₂) : SameOperation (takeEvent s₁) (takeEvent s₂) := by
  obtain ⟨_, hb, _, _, _, _, _, _, _, _, ho, _, _, _, _, hf⟩ := h
  constructor
  case fields => simpa [Decoding] using hf
  all_goals simpa

end Sys2Proof.Machine
end

