-- ==== Sys2Proof/Laws/PerInstr.lean ====
section
/-! SUPPORT. Statements about every command as syntax, one lemma per command. -/

namespace Sys2Proof.Laws.Encoding

/-- A command's word is a command word, decodes to the command, from the opcode table's numbering too, and its mnemonic
names it (R70, R71, R82). -/
def Statement (i : Instr) : Prop :=
  i.wf = true ∧ (encode i).isCommand = true ∧ decodeWord (encode i) = .ok i ∧
    decodeTableWord 16 (encode i).toNat = some i ∧ assemble i.mnemonic = some i

theorem attachBus : Statement .attachBus := by unfold Statement; decide

theorem attachStream : Statement .attachStream := by unfold Statement; decide

theorem decode : Statement .decode := by unfold Statement; decide

end Sys2Proof.Laws.Encoding
end

