-- ==== Sys2Proof/Tests/Slice0.lean ====
section
/-! SUPPORT. Small tests: ill-formed terms are refused, words written out from the spec decode, vectors of
spec/95_test_vectors.md, and a witness (test_hyp_…) for the hypotheses of each statement that has some. -/

namespace Sys2Proof.Machine

/-! Small states. -/

/-- The completed frame F1 of V1. -/
def testF1 : List Byte :=
  [0x42, 0x4D, 0x00, 0x1E, 0x00, 0x28, 0x00, 0x32, 0x00, 0x0A, 0x00, 0x14, 0x00, 0x1E, 0x00, 0x64] ++
  [0x00, 0xC8, 0x01, 0x2C, 0x02, 0x58, 0x04, 0xB0, 0x00, 0x00, 0x00, 0x00, 0x00, 0x00, 0x03, 0xAA]

/-- The smallest valid frame, V9. -/
def testV9 : List Byte :=
  [0x42, 0x4D] ++ List.replicate 28 0x00 ++ [0x00, 0x8F]

/-- The largest valid frame, V10. -/
def testV10 : List Byte :=
  [0x42, 0x4D] ++ List.replicate 28 0xFF ++ [0x1C, 0x73]

/-- 32 bytes as a bus answer. -/
def testAnswer (F : List Byte) : Vector Byte 32 :=
  Vector.ofFn fun i => frameByte F i.val

/-- 32 bytes as a buffer. -/
def testBuf (F : List Byte) : Memory :=
  Memory.cleared.writeBytes 0 F

/-- Idle, bound to `b`, with queue `q` and CONFIG.SRA `sra`. -/
def testIdle (b : Transport) (q : List Byte) (sra : Bool := false) : State :=
  { State.reset with transport := b, rxq := q, sra := sra }

/-- Idle and DONE with OK, as V40 starts. -/
def testDone : State :=
  { State.reset with transport := .stream, doneFlag := true, result := .ok }

/-- Command `i` in phase `p`, bound to `b`, with queue `q`. -/
def testIn (i : Instr) (p : Phase) (b : Transport) (q : List Byte) (sraL : Bool := false) : State :=
  { State.reset with busy := true, op := i, phase := p, transport := b, rxq := q, sraL := sraL }

/-- A DECODE in CHECK over `F`. -/
def testCheck (F : List Byte) : State :=
  { testIn .decode .check .stream [] with buf := testBuf F, n := 32 }

/-- The Host at the only line of its program, its move next. -/
def testHost (l : HostLine) (s : State) : State :=
  { s with hostProg := [l], hostPc := 0, agenda := [.host] }

/-- The move `e` next. -/
def testMove (e : Event) (s : State) : State :=
  { s with agenda := [e] }

/-- Whether the answer is a next state with `p`. -/
def testNext (o : Outcome) (p : State → Bool) : Bool :=
  match o with
  | .next t => p t
  | .fault _ => false
  | .refused _ => false

/-! Well-formedness: each check refuses a term. -/

theorem test_wf_commands : Instr.attachBus.wf && Instr.attachStream.wf && Instr.decode.wf := by decide

theorem test_ill_reserved_bits : Word.isCommand 0x0103 = false := by decide

theorem test_ill_reserved_opcode : Word.isCommand 0x0004 = false := by decide

theorem test_ill_zero_word : Word.isCommand 0x0000 = false := by decide

theorem test_ill_access_width : HostAccess.wf ⟨8, true, cmdAddr, 0x0003⟩ = false := by decide

theorem test_ill_read_with_value : HostAccess.wf ⟨16, false, statusAddr, 0x0001⟩ = false := by decide

theorem test_ill_label : HostLine.wf 2 (.ifGoto ⟨0x0020, 0x0000, true⟩ 3) = false := by decide

theorem test_ill_program : hostProgramWf [issue .decode, .ifGoto ⟨0x0020, 0x0000, true⟩ 3] = false := by decide

theorem test_wf_program : hostProgramWf (issueAndWait .decode 0) = true := by decide

/-! Decoding, the words written out from R70, R71, R83. -/

theorem test_decode_attachBus : decodeWord 0b0000000000000001 = .ok .attachBus := rfl

theorem test_decode_attachStream : decodeWord 0b0000000000000010 = .ok .attachStream := rfl

theorem test_decode_decode : decodeWord 0b0000000000000011 = .ok .decode := rfl

theorem test_decode_rejects_rsv : decodeWord 0x0103 = .error .reservedBits := rfl

theorem test_decode_rejects_op : decodeWord 0x0004 = .error .reservedOpcode := rfl

theorem test_decode_rejects_zero : decodeWord 0x0000 = .error .reservedOpcode := rfl

theorem test_isCommand_decodes (i : Instr) : Word.isCommand (encode i) = true := by cases i <;> decide

/-- The four listings of R83. -/
theorem test_listing :
    decodeAccess 0x200003 = some ⟨16, true, 0x00, 0x0003⟩ ∧ decodeAccess 0x010000 = some ⟨16, false, 0x01, 0⟩ ∧
    decodeAccess 0x220001 = some ⟨16, true, 0x02, 0x0001⟩ ∧ decodeAccess 0x110000 = some ⟨16, false, 0x11, 0⟩ := by
  decide

theorem test_listing_rejects_read_value : decodeAccess 0x010001 = none := by decide

/-- R22: FIELD14 stands at 0x1E; 0x0F and 0x1F are reserved. -/
theorem test_register_map :
    regAt 0x1E = .field 14 ∧ regAt 0x10 = .field 0 ∧ regAt 0x0F = .reserved ∧ regAt 0x1F = .reserved ∧
    fieldAddr 14 = 0x1E := by decide

/-! Arithmetic: V43 to V45. -/

theorem test_accumulator_V43 :
    accumulate 0xFFFF 0x01 = 0x0000 ∧ accumulate 0xFFFF 0xFF = 0x00FE ∧ accumulate 0x0000 0x80 = 0x0080 := by decide

theorem test_largest_sum_V44 : checksum (testBuf (List.replicate 32 0xFF)) = 0x1DE2 := by decide

theorem test_unpacker_V45 :
    bigEndian 0x01 0x2C = 0x012C ∧ bigEndian 0x2C 0x01 = 0x2C01 ∧ bigEndian 0x80 0x00 = 0x8000 ∧
    bigEndian 0xFF 0x00 = 0xFF00 := by decide

/-! The CHECK step: V1 to V13. -/

theorem test_check_V1 :
    testNext (execDecode (testCheck testF1)) (fun t => t.result == .ok && t.valid && t.fields[1] == 0x0028 &&
      t.fields[8] == 0x012C && t.fields[14] == 0x03AA && statusWord t == 0x0260) := by decide

theorem test_check_V6 :
    testNext (execDecode (testCheck ([0x00, 0x00] ++ (testF1.drop 2).take 28 ++ [0x03, 0x1B])))
      (fun t => statusWord t == 0x0225 && t.fields[1] == 0x0000) := by decide

theorem test_verdicts :
    verdict (testBuf ([0x4D, 0x42] ++ testF1.drop 2)) = .invalidHeader ∧
    verdict (testBuf (testF1.take 31 ++ [0xAB])) = .checksumMismatch ∧
    verdict (testBuf testV9) = .ok ∧ verdict (testBuf testV10) = .ok ∧
    verdict Memory.cleared = .invalidHeader := by decide

/-! Single steps of each command. -/

theorem test_attachStream_V39 :
    testNext (execAttachStream { testIn .attachStream .dispatch .stream testF1 with valid := true })
      (fun t => statusWord t == 0x0260 && t.rxq == testF1) := by decide

theorem test_attachBus_nack_V37 :
    testNext (execAttachBus { testIn .attachBus .probeWait .stream [] with busAns := some .nack })
      (fun t => statusWord t == 0x0221) := by decide

theorem test_decode_accept_status :
    testNext (execDecode { testDone with valid := true }) (fun t => statusWord t == 0x021F) := by decide

/-- V20: the byte at the bound is not consumed. -/
theorem test_scan_bound_V20 :
    testNext (execDecode { testIn .decode .scan .stream [0x00, 0x42] with disc := 32 })
      (fun t => statusWord t == 0x0224 && t.rxq == [0x00, 0x42]) := by decide

/-- V42, V48: reads and writes of the register map. -/
theorem test_config_V48 :
    testNext (hostWrite configAddr 0xFFFF testDone) (fun t => hostRead configAddr t == 0x0001) ∧
    testNext (hostWrite configAddr 0xFFFE testDone) (fun t => hostRead configAddr t == 0x0000) := by decide

theorem test_ignored_writes_V42 :
    testNext (hostWrite (fieldAddr 0) 0x1234 testDone) (fun t => hostRead (fieldAddr 0) t == 0x0000) ∧
    testNext (hostWrite statusAddr 0xFFFF testDone) (fun t => hostRead statusAddr t == 0x0220) := by decide

/-- A placed DECODE is accepted by the first step after reset. -/
theorem test_placed_decode_runs :
    testNext (step (State.reset.withFetchWord 16 3)) (fun t => t.busy && t.op == .decode && t.phase == .dispatch) := by
  decide

/-! The bus protocol and faults. -/

theorem test_wrong_width_faults : step (testHost (.access ⟨8, false, statusAddr, 0⟩) State.reset) = .fault .hostAccessWidth :=
  rfl

theorem test_foreign_pop_faults : step (testMove .foreignPop (testIdle .stream [0x42])) = .fault .foreignStreamConsumer :=
  rfl

theorem test_fill_outside_buffer_faults :
    execDecode { testIn .decode .fill .stream [0x42] with n := 32 } = .fault .bufferIndex := rfl

/-! Witnesses. For each statement with hypotheses, a concrete state and operands that meet all of them, for each clause. -/

theorem test_hyp_StepRunsTheDecodedCommand_host :
    let s := testHost (hostWr cmdAddr 0x0003) testDone
    s.agenda = .host :: [] ∧ s.hostProg[s.hostPc]? = some (hostWr cmdAddr 0x0003) ∧ decodeWord 0x0003 = .ok .decode ∧
      s.busy = false := ⟨rfl, rfl, rfl, rfl⟩

theorem test_hyp_StepRunsTheDecodedCommand_engine :
    let s := testMove .engine (testIn .decode .dispatch .stream testF1)
    s.agenda = .engine :: [] ∧ s.busy = true := by decide

theorem test_hyp_PlacedCommandRunsNext : State.reset.busy = false := by decide

theorem test_hyp_AccessListingRoundTrip :
    HostAccess.wf ⟨16, true, 0x1F, 0xFFFF⟩ = true ∧ HostAccess.wf ⟨16, false, 0x1E, 0x0000⟩ = true ∧
    decodeAccess 0x3FFFFF = some ⟨16, true, 0x1F, 0xFFFF⟩ := by decide

theorem test_hyp_ReservedWordsAreIgnored :
    testDone.busy = false ∧ (0x0103 : Word).extractLsb' 8 8 ≠ 0x00 ∧ (0x0004 : Word).extractLsb' 8 8 = 0x00 ∧
    (0x0004 : Word).extractLsb' 0 8 ≠ 0x01 ∧ (0x0004 : Word).extractLsb' 0 8 ≠ 0x02 ∧
    (0x0004 : Word).extractLsb' 0 8 ≠ 0x03 := by decide

theorem test_hyp_CommandWriteWhileBusyFaults : (testIn .attachBus .probeWait .unbound []).busy = true := by decide

theorem test_hyp_AcceptedDecodeStartsClean : { testDone with buf := testBuf testF1 }.busy = false := by decide

theorem test_hyp_AttachBusEngineSteps :
    Running .attachBus .dispatch (testIn .attachBus .dispatch .unbound []) ∧
    Running .attachBus .probeWait { testIn .attachBus .probeWait .unbound [] with busAns := some .ack } ∧
    Running .attachBus .probeWait { testIn .attachBus .probeWait .unbound [] with busAns := some .nack } := by decide

theorem test_hyp_AttachStreamEngineStep :
    Running .attachStream .dispatch (testIn .attachStream .dispatch .bus []) := by decide

theorem test_hyp_AttachFrame :
    (∃ t, exec .attachBus (testIn .attachBus .dispatch .stream testF1) = .next t) ∧
    (∃ t, exec .attachStream testDone = .next t) := ⟨⟨_, rfl⟩, ⟨_, rfl⟩⟩

theorem test_hyp_AttachBusRunsToCompletion :
    State.reset.busy = false ∧ (BusAnswer.ack = .ack ∨ BusAnswer.ack = .nack) ∧
    (BusAnswer.nack = .ack ∨ BusAnswer.nack = .nack) := by decide

theorem test_hyp_DecodeDispatchStep :
    Running .decode .dispatch (testIn .decode .dispatch .unbound []) ∧
    Running .decode .dispatch (testIn .decode .dispatch .bus []) ∧
    Running .decode .dispatch (testIn .decode .dispatch .stream []) ∧
    Running .decode .dispatch (testIn .decode .dispatch .stream [0x00]) := by decide

/-- A DECODE in BUS_WAIT with answer `r`. -/
def testBusWait (r : Option BusAnswer) : State :=
  { testIn .decode .busWait .bus [] with busReq := .read Config.busAddr 32, busAns := r }

theorem test_hyp_BusReadAnswerStep :
    Running .decode .busWait (testBusWait (some (.data (testAnswer testF1)))) ∧
    (testBusWait (some (.data (testAnswer testF1)))).buf.wf = true ∧
    Running .decode .busWait (testBusWait (some .fail)) := by decide

theorem test_valid_frames : ValidFrame testF1 ∧ ValidFrame testV9 ∧ ValidFrame testV10 := by decide

theorem test_hyp_BusDecodeCommitsValidFrame :
    (testIdle .bus [0x42]).busy = false ∧ (testIdle .bus [0x42]).transport = .bus ∧
    ValidFrame (testAnswer testF1).toList := by decide

theorem test_hyp_ScanStep :
    Running .decode .scan (testIn .decode .scan .stream [] true) ∧
    Running .decode .scan (testIn .decode .scan .stream [0x42]) ∧
    Running .decode .scan { testIn .decode .scan .stream [0x00] with disc := 32 } ∧
    Running .decode .scan { testIn .decode .scan .stream [0x00] with disc := 31 } := by decide

theorem test_hyp_FillStep_first :
    let s := testIn .decode .fill .stream [0x42, 0x4D]
    Running .decode .fill s ∧ s.buf.wf = true ∧ s.n < 32 ∧ s.rxq = 0x42 :: [0x4D] := by decide

theorem test_hyp_FillStep_last :
    let s := { testIn .decode .fill .stream [0xAA] with n := 31, buf := testBuf (testF1.take 31) }
    Running .decode .fill s ∧ s.buf.wf = true ∧ s.n < 32 ∧ s.rxq = 0xAA :: [] := by decide

theorem test_hyp_WaitingEngineChangesNothing :
    (Running .attachBus .probeWait (testIn .attachBus .probeWait .unbound []) ∧
      (testIn .attachBus .probeWait .unbound []).busAns = none) ∧
    (Running .decode .busWait (testBusWait none) ∧ (testBusWait none).busAns = none) ∧
    (Running .decode .fill (testIn .decode .fill .stream []) ∧ (testIn .decode .fill .stream []).rxq = []) := by decide

theorem test_hyp_EndReadIsTheShortTransfer :
    let s := { testIn .decode .fill .stream [] with n := 31 }
    (s.op = .decode ∧ s.phase = .fill ∧ s.n < 32 ∧ s.rxq = []) ∧
    ¬ (testDone.phase = .fill ∧ testDone.n < 32 ∧ testDone.rxq = []) ∧
    (let u := testIn .decode .fill .stream [0x4D]
     ¬ (u.phase = .fill ∧ u.n < 32 ∧ u.rxq = [])) := by decide

theorem test_hyp_ScanEndsWithinThirtyThreeSteps :
    Running .decode .scan (testIn .decode .scan .stream (List.replicate 33 0x00)) ∧
    Running .decode .scan { testIn .decode .scan .stream [0x00] with disc := 32 } ∧ (32 : Nat) ≤ 32 := by decide

theorem test_hyp_ResyncFindsTheFrame_none :
    let s := testIdle .stream (testF1 ++ [0x00])
    s.busy = false ∧ s.transport = .stream ∧ s.rxq = [] ++ testF1 ++ [0x00] ∧ ([] : List Byte).length ≤ 32 ∧
      (0x42 : Byte) ∉ ([] : List Byte) ∧ ValidFrame testF1 := by decide

theorem test_hyp_ResyncFindsTheFrame_most :
    let g : List Byte := List.replicate 32 0x00
    let s := testIdle .stream (g ++ testV9 ++ []) true
    s.busy = false ∧ s.transport = .stream ∧ s.rxq = g ++ testV9 ++ [] ∧ g.length ≤ 32 ∧ (0x42 : Byte) ∉ g ∧
      ValidFrame testV9 := by decide

theorem test_hyp_ResyncStopsAtItsBound :
    let g : List Byte := List.replicate 32 0x00
    let s := testIdle .stream (g ++ 0x01 :: testF1)
    s.busy = false ∧ s.transport = .stream ∧ s.rxq = g ++ 0x01 :: testF1 ∧ g.length = 32 ∧ (0x42 : Byte) ∉ g ∧
      (0x01 : Byte) ≠ 0x42 := by decide

theorem test_hyp_ResyncExhaustion_one :
    let s := testIdle .stream [0x11]
    s.busy = false ∧ s.transport = .stream ∧ s.rxq ≠ [] ∧ s.rxq.length ≤ 32 ∧ (0x42 : Byte) ∉ s.rxq := by decide

theorem test_hyp_ResyncExhaustion_most :
    let s := testIdle .stream (List.replicate 32 0x00) true
    s.busy = false ∧ s.transport = .stream ∧ s.rxq ≠ [] ∧ s.rxq.length ≤ 32 ∧ (0x42 : Byte) ∉ s.rxq := by decide

theorem test_hyp_ConsumedBytesAreCounted :
    (testIdle .stream [0x00, 0x42]).busy = false ∧ (testIdle .stream [0x00, 0x42]).transport = .stream ∧
    ∃ s₀ t, exec .decode (testIdle .stream [0x00, 0x42]) = .next s₀ ∧ engineRun 2 s₀ = .next t ∧ t.rxq = [0x42] :=
  ⟨rfl, rfl, _, _, rfl, rfl, rfl⟩

theorem test_hyp_AccumulatorWrapsInAnyOrder : List.Perm ([0x01, 0x02] : List Byte) [0x02, 0x01] := by decide

theorem test_hyp_CheckCommitsValidBuffer :
    let s := testCheck testF1
    Running .decode .check s ∧ s.buf.read 0 = 0x42 ∧ s.buf.read 1 = 0x4D ∧
      pairValue (s.buf.read 30) (s.buf.read 31) = bufferSum s.buf % 65536 := by decide

theorem test_hyp_CheckRejectsBadBuffer_header :
    let s := testCheck ([0x42, 0x4E] ++ testF1.drop 2)
    Running .decode .check s ∧ ¬ (s.buf.read 0 = 0x42 ∧ s.buf.read 1 = 0x4D) := by decide

theorem test_hyp_CheckRejectsBadBuffer_checksum :
    let s := testCheck (testF1.take 31 ++ [0xAB])
    Running .decode .check s ∧ s.buf.read 0 = 0x42 ∧ s.buf.read 1 = 0x4D ∧
      pairValue (s.buf.read 30) (s.buf.read 31) ≠ bufferSum s.buf % 65536 := by decide

theorem test_hyp_CheckReadsOnlyTheBuffer :
    let s₁ := testCheck testF1
    let s₂ := { testCheck testF1 with transport := .bus, rxq := [0x42], sra := true }
    Running .decode .check s₁ ∧ Running .decode .check s₂ ∧ ∀ i, i < 32 → s₁.buf.read i = s₂.buf.read i :=
  ⟨by decide, by decide, fun _ _ => rfl⟩

theorem test_hyp_DecodeFrame :
    (∃ t, exec .decode testDone = .next t) ∧
    (∃ t, exec .decode (testBusWait (some (.data (testAnswer testF1)))) = .next t) ∧
    (∃ t, exec .decode (testIn .decode .fill .stream [0x42]) = .next t) ∧
    (∃ t, exec .decode (testCheck testF1) = .next t) := ⟨⟨_, rfl⟩, ⟨_, rfl⟩, ⟨_, rfl⟩, ⟨_, rfl⟩⟩

theorem test_hyp_DecodeFrame_busWait :
    (∃ t, exec .decode (testBusWait (some .fail)) = .next t) ∧ (∃ t, exec .decode (testBusWait none) = .next t) ∧
    (∀ d, (testBusWait (some .fail)).busAns ≠ some (.data d)) ∧ ∀ d, (testBusWait none).busAns ≠ some (.data d) :=
  ⟨⟨_, rfl⟩, ⟨_, rfl⟩, fun _ h => by simp [testBusWait] at h, fun _ h => by simp [testBusWait] at h⟩

theorem test_hyp_HostReadsHaveNoSideEffect :
    (HostAccess.mk 16 false statusAddr 0).width = 16 ∧ (HostAccess.mk 16 false statusAddr 0).write = false ∧
    ∃ t, hostWrite configAddr 0x0001 testDone = .next t := ⟨rfl, rfl, _, rfl⟩

/-- `wait_done` at line 0, the next two moves the Host's. -/
def testWaiting (done : Bool) : State :=
  { State.reset with hostProg := waitDone 0, agenda := [.host, .host], doneFlag := done }

theorem test_hyp_WaitDoneTurn :
    ∀ done : Bool, (testWaiting done).agenda = .host :: .host :: [] ∧
      (testWaiting done).hostProg[(testWaiting done).hostPc]? = some (hostRd statusAddr) ∧
      (testWaiting done).hostProg[(testWaiting done).hostPc + 1]? =
        some (.ifGoto ⟨0x0020, 0x0000, true⟩ (testWaiting done).hostPc) := by
  intro done; exact ⟨rfl, rfl, rfl⟩

theorem test_hyp_BusTargetAnswersOnce :
    State.reset.busReq = .none ∧ (testBusWait (some .fail)).busAns ≠ none ∧
    (∃ a, (testBusWait none).busReq = .read a 32) ∧ (testBusWait none).busAns = none ∧
    (∃ a, { State.reset with busReq := .probe Config.busAddr }.busReq = .probe a) :=
  ⟨rfl, by decide, ⟨_, rfl⟩, rfl, ⟨_, rfl⟩⟩

/-! Witnesses for the invariants. -/

theorem test_clean_bufferInv {s : State} (hb : s.buf = Memory.cleared) (hd : s.disc = 0) (hn : s.n = 0) :
    BufferInv s where
  wf := by rw [hb]; rfl
  disc_le := by omega
  n_le := by omega
  fresh _ _ := hn
  scan_empty _ := hn
  fill_room _ := by omega
  rest_zero _ i _ := by rw [hb]; rfl

theorem test_quiet_controlInv {s : State} (hbusy : s.busy = true ↔ s.phase ≠ .idle) (hdone : s.doneFlag = true → s.busy = false)
    (hres : s.result = .none ↔ s.doneFlag = false) (hreq : reqOfPhase s.phase s.busReq) (hans : s.busAns = none)
    (hop : opOfPhase s.phase s.op s.transport) : ControlInv s :=
  ⟨hbusy, hdone, hres, hreq, fun r hr => by simp [hans] at hr, hop⟩

theorem test_reset_controlInv : ControlInv State.reset :=
  test_quiet_controlInv (by decide) (by decide) (by decide) rfl rfl trivial

theorem test_done_controlInv : ControlInv testDone :=
  test_quiet_controlInv (by decide) (by decide) (by decide) rfl rfl trivial

/-- A FILL about to store its first byte. -/
def testFill : State :=
  testMove .engine (testIn .decode .fill .stream testF1)

theorem test_fill_inv : Inv testFill where
  control := test_quiet_controlInv (by decide) (by decide) (by decide) rfl rfl ⟨rfl, rfl⟩
  buffer := test_clean_bufferInv rfl rfl rfl
  reading := ⟨by decide, fun _ _ => rfl, fun _ => rfl⟩
  marker := ⟨fun _ _ _ => rfl, by decide⟩

theorem test_hyp_StepKeepsMarkerInv : Inv testFill ∧ ∃ t, step testFill = .next t ∧ t.n = 1 ∧ t.buf.read 0 = 0x42 :=
  ⟨test_fill_inv, _, rfl, by decide, by decide⟩

theorem test_hyp_StepKeepsControlInv :
    ControlInv (testHost (issue .decode) State.reset) ∧
    ∃ t, step (testHost (issue .decode) State.reset) = .next t ∧ t.busy = true :=
  ⟨test_quiet_controlInv (by decide) (by decide) (by decide) rfl rfl trivial, _, rfl, rfl⟩

theorem test_hyp_StepKeepsBufferInv : BufferInv testFill ∧ ∃ t, step testFill = .next t := ⟨test_fill_inv.buffer, _, rfl⟩

theorem test_hyp_StepKeepsReadingInv :
    ReadingInv testFill ∧ ∃ t, step testFill = .next t := ⟨test_fill_inv.reading, _, rfl⟩

/-- A DECODE about to commit F1. -/
def testCommit : State :=
  testMove .engine (testCheck testF1)

theorem test_hyp_FieldsChangeOnlyAtCompletion_ok :
    ControlInv testCommit ∧ ∃ t, step testCommit = .next t ∧ t.fields ≠ testCommit.fields :=
  ⟨test_quiet_controlInv (by decide) (by decide) (by decide) (.inl rfl) rfl ⟨rfl, by decide⟩, _, rfl, by decide⟩

/-- A DECODE of an unbound FBS over an old Reading, the move `e` next. -/
def testOldReading (e : Event) : State :=
  testMove e { testIn .decode .dispatch .unbound [] with fields := Vector.replicate 15 0x0001#16 }

theorem test_hyp_FieldsChangeOnlyAtCompletion_error :
    ControlInv (testOldReading .engine) ∧
    ∃ t, step (testOldReading .engine) = .next t ∧ t.fields ≠ (testOldReading .engine).fields :=
  ⟨test_quiet_controlInv (by decide) (by decide) (by decide) rfl rfl trivial, _, rfl, by decide⟩

theorem test_hyp_FieldsChangeOnlyAtCompletion_reset :
    ControlInv (testOldReading .reset) ∧
    ∃ t, step (testOldReading .reset) = .next t ∧ t.fields ≠ (testOldReading .reset).fields :=
  ⟨test_quiet_controlInv (by decide) (by decide) (by decide) rfl rfl trivial, _, rfl, by decide⟩

/-- An attach about to bind. -/
def testBindStream : State :=
  testMove .engine (testIn .attachStream .dispatch .bus [])

theorem test_hyp_BindingChangesOnlyByAttach_stream :
    ∃ t, step testBindStream = .next t ∧ t.transport ≠ testBindStream.transport := ⟨_, rfl, by decide⟩

theorem test_hyp_BindingChangesOnlyByAttach_bus :
    let s := testMove .engine { testIn .attachBus .probeWait .stream [] with busAns := some .ack }
    ∃ t, step s = .next t ∧ t.transport ≠ s.transport := ⟨_, rfl, by decide⟩

theorem test_hyp_BindingChangesOnlyByAttach_reset :
    ∃ t, step (testMove .reset testDone) = .next t ∧ t.transport ≠ testDone.transport := ⟨_, rfl, by decide⟩

theorem test_hyp_ConfigChangesOnlyByTheHost :
    (∃ t, step (testHost (hostWr configAddr 0x0001) testDone) = .next t ∧ t.sra ≠ testDone.sra) ∧
    (∃ t, step (testMove .reset { testDone with sra := true }) = .next t ∧ t.sra ≠ true) :=
  ⟨⟨_, rfl, by decide⟩, ⟨_, rfl, by decide⟩⟩

/-- A stream DECODE in FILL counts the byte the Engine takes, and neither an appended nor a missing one. -/
theorem test_hyp_ConsumedBytesAreCounted_step :
    (ControlInv testFill ∧ Decoding testFill ∧ testFill.transport = .stream ∧ nextEvent testFill ≠ .reset ∧
      ∃ t, step testFill = .next t ∧ testFill.rxq = 0x42 :: t.rxq ∧ t.disc + t.n = 1) ∧
    (let s := testMove (.append 0x99) testFill
     ControlInv s ∧ nextEvent s ≠ .reset ∧ ∃ t, step s = .next t ∧ t.rxq = testF1 ++ [0x99] ∧ t.disc + t.n = 0) ∧
    (let s := testMove .endRead { testFill with rxq := [] }
     ControlInv s ∧ nextEvent s ≠ .reset ∧ ∃ t, step s = .next t ∧ t.busy = false ∧ t.disc + t.n = 0) :=
  ⟨⟨test_fill_inv.control, by decide, rfl, by decide, _, rfl, rfl, rfl⟩,
   ⟨test_quiet_controlInv (by decide) (by decide) (by decide) rfl rfl ⟨rfl, rfl⟩, by decide, _, rfl, rfl, rfl⟩,
   ⟨test_quiet_controlInv (by decide) (by decide) (by decide) rfl rfl ⟨rfl, rfl⟩, by decide, _, rfl, rfl, rfl⟩⟩

/-- V49: CONFIG is written during a DECODE. -/
theorem test_hyp_LatchHoldsWhileBusy :
    let s := testHost (hostWr configAddr 0x0001) testFill
    ∃ t, step s = .next t ∧ s.busy = true ∧ nextEvent s ≠ .reset ∧ t.sra = true ∧ t.sraL = false :=
  ⟨_, rfl, rfl, by decide, rfl, rfl⟩

theorem test_hyp_QueueIsFifo :
    (∃ t, step (testMove (.append 0x42) testDone) = .next t ∧ t.rxq = [0x42]) ∧
    (∃ t, step testFill = .next t ∧ testFill.rxq = 0x42 :: t.rxq) ∧
    (∃ t, step (testMove .reset testFill) = .next t ∧ t.rxq = testFill.rxq) :=
  ⟨⟨_, rfl, rfl⟩, ⟨_, rfl, rfl⟩, ⟨_, rfl, rfl⟩⟩

theorem test_hyp_DoneOutputEdges_rise :
    ControlInv testBindStream ∧ ∃ t, step testBindStream = .next t ∧ doneO testBindStream = false ∧ doneO t = true :=
  ⟨test_quiet_controlInv (by decide) (by decide) (by decide) rfl rfl trivial, _, rfl, rfl, rfl⟩

theorem test_hyp_DoneOutputEdges_fall :
    let s := testHost (issue .attachBus) testDone
    ControlInv s ∧ (∃ t, step s = .next t ∧ doneO s = true ∧ doneO t = false ∧ s.busy = false ∧ t.busy = true) ∧
    ∃ t, step (testMove .reset testDone) = .next t ∧ doneO testDone = true ∧ doneO t = false :=
  ⟨test_quiet_controlInv (by decide) (by decide) (by decide) rfl rfl trivial, ⟨_, rfl, rfl, rfl, rfl, rfl⟩, _, rfl, rfl, rfl⟩

theorem test_hyp_ResultsStayUntilNextCommand :
    let s := testHost (hostWr cmdAddr 0x0004) testDone
    ControlInv s ∧ s.doneFlag = true ∧ nextEvent s ≠ .reset ∧ ∃ t, step s = .next t ∧ t.busy = false :=
  ⟨test_quiet_controlInv (by decide) (by decide) (by decide) rfl rfl trivial, rfl, by decide, _, rfl, rfl⟩

theorem test_hyp_FaultsExactlyAsListed :
    BufferInv (testHost (.access ⟨8, false, statusAddr, 0⟩) State.reset) ∧
    BufferInv (testHost (hostWr cmdAddr 0x0004) testFill) ∧
    step (testHost (hostWr cmdAddr 0x0004) testFill) = .fault .cmdWhileBusy ∧
    BufferInv (testMove .foreignPop (testIdle .stream [0x42])) :=
  ⟨test_clean_bufferInv rfl rfl rfl, test_clean_bufferInv rfl rfl rfl, rfl, test_clean_bufferInv rfl rfl rfl⟩

theorem test_hyp_NothingIsRefused : BufferInv testFill := test_fill_inv.buffer

theorem test_hyp_DispatchScanCheckNeverWait :
    ControlInv testBindStream ∧ testBindStream.phase = .dispatch ∧
    ControlInv (testIn .decode .scan .stream []) ∧ ControlInv testCommit :=
  ⟨test_quiet_controlInv (by decide) (by decide) (by decide) rfl rfl trivial, rfl,
   test_quiet_controlInv (by decide) (by decide) (by decide) rfl rfl ⟨rfl, rfl⟩,
   test_hyp_FieldsChangeOnlyAtCompletion_ok.1⟩

theorem test_hyp_ResetEffect : (testMove .reset testFill).agenda = .reset :: [] := rfl

theorem test_hyp_DecodeForgetsEarlierCalls :
    let s₁ := testIdle .stream []
    let s₂ := { testDone with buf := testBuf testF1, n := 32, disc := 5, op := .decode }
    ControlInv s₁ ∧ ControlInv s₂ ∧ s₁.busy = false ∧ s₂.busy = false ∧ s₁.transport = s₂.transport ∧ s₁.sra = s₂.sra ∧
      s₁.rxq = s₂.rxq ∧ ∃ a₁ a₂ t₁, exec .decode s₁ = .next a₁ ∧ exec .decode s₂ = .next a₂ ∧
        engineRun 1 a₁ = .next t₁ ∧ t₁.result = .noData :=
  ⟨test_quiet_controlInv (by decide) (by decide) (by decide) rfl rfl trivial,
   test_quiet_controlInv (by decide) (by decide) (by decide) rfl rfl trivial, rfl, rfl, rfl, rfl, rfl, _, _, _, rfl, rfl,
   rfl, rfl⟩

/-- `testFill` over the Reading of an earlier call, with a Host of its own, the move `e` next. -/
def testOtherFill (e : Event) : State :=
  { testMove e testFill with fields := Vector.replicate 15 0x0001#16, hostLast := 0x1234 }

theorem test_sameOperation (e e' : Event) : SameOperation (testMove e testFill) (testOtherFill e') :=
  ⟨rfl, rfl, rfl, rfl, rfl, rfl, rfl, rfl, rfl, rfl, rfl, rfl, rfl, rfl, rfl, fun h => absurd ⟨rfl, rfl⟩ h⟩

/-- The Engine's move, an EndRead that is not enabled, a Host at no line, and a foreign removal, which stops both. -/
theorem test_hyp_DecodeForgetsEarlierCalls_move :
    (∀ e : Event, SameOperation (testMove e testFill) (testOtherFill e) ∧ SameMove (testMove e testFill) (testOtherFill e)) ∧
    (testMove .engine testFill).fields ≠ (testOtherFill .engine).fields ∧
    (∃ t, step (testMove .engine testFill) = .next t) ∧ (∃ t, step (testMove .host testFill) = .next t) ∧
    step (testMove .foreignPop testFill) = .fault .foreignStreamConsumer :=
  ⟨fun e => ⟨test_sameOperation e e, rfl, fun _ => rfl⟩, by decide, ⟨_, rfl⟩, ⟨_, rfl⟩, rfl⟩

/-- Two Hosts at the same line with different values read, writing CONFIG. -/
theorem test_hyp_DecodeForgetsEarlierCalls_host :
    let s₁ := testHost (hostWr configAddr 0x0001) testFill
    let s₂ := testHost (hostWr configAddr 0x0001) (testOtherFill .host)
    SameOperation s₁ s₂ ∧ SameMove s₁ s₂ ∧ ∃ t, step s₁ = .next t ∧ t.sra = true :=
  ⟨⟨rfl, rfl, rfl, rfl, rfl, rfl, rfl, rfl, rfl, rfl, rfl, rfl, rfl, rfl, rfl, fun h => absurd ⟨rfl, rfl⟩ h⟩,
   ⟨rfl, fun _ => rfl⟩, _, rfl, rfl⟩

theorem test_hyp_StatusOfEveryReachableState : Reachable (fbsReset State.reset) := ⟨State.reset, 0, rfl⟩

/-- A reset FBS whose Host attaches the bus and decodes, F1 on the bus: its nine moves reach VALID = 1. -/
def testBusSession : State :=
  { State.reset with
    hostProg := [issue .attachBus, issue .decode]
    agenda := [.host, .engine, .busAnswer .ack, .engine] ++
      [.host, .engine, .busAnswer (.data (testAnswer testF1)), .engine, .engine] }

theorem test_hyp_StatusOfEveryReachableState_valid :
    ∃ t, Host.Core.run Sys2Proof.core 9 (fbsReset testBusSession) = .next t ∧ (statusWord t).getLsbD 6 = true :=
  ⟨_, rfl, rfl⟩

/-- A byte written is read back, and its neighbour stays. -/
theorem test_memory_write : ((testBuf testF1).write 5 0x99).read 5 = 0x99 ∧ ((testBuf testF1).write 5 0x99).read 4 = 0x00 ∧
    ((testBuf testF1).write 5 0x00).wf = true := by decide

end Sys2Proof.Machine
end

section
/-! PROOFS. Laws of the moves, written once for every statement about a step: updates of single steps written as the
shared updates, their fields, the verdict of CHECK, and the two attaches as one inversion. -/

namespace Sys2Proof.Machine

/-! The updates of single steps, written as the shared updates of Laws/State.lean. -/

theorem decodeCheck_eq (s : State) : decodeCheck s = finish (verdict s.buf) (unpack s.buf) s := rfl

/-- After a stored byte the fill goes on, or CHECK follows at 32 (R135). -/
theorem fillNext_eq (s : State) : fillNext s = toPhase (if s.n = 32 then .check else s.phase) s := by
  by_cases hn : s.n = 32 <;> simp [fillNext, Config.frameLen, hn, toPhase]

/-- The short transfer fails by default and goes to CHECK on the degraded path (R137). -/
theorem shortTransfer_cases (s : State) :
    (s.sraL = false ∧ shortTransfer s = finish .transportError noReading s) ∨
    (s.sraL = true ∧ shortTransfer s = toPhase .check s) := by
  cases hl : s.sraL
  · exact .inl ⟨rfl, by simp [shortTransfer, hl, finishWith]⟩
  · exact .inr ⟨rfl, by simp [shortTransfer, hl]⟩

@[simp] theorem discardHead_rxq (s : State) : (discardHead s).rxq = s.rxq.tail := rfl
@[simp] theorem storeHead_rxq (b : Byte) (s : State) : (storeHead b s).rxq = s.rxq.tail := rfl
@[simp] theorem storeHead_n (b : Byte) (s : State) : (storeHead b s).n = s.n + 1 := rfl
@[simp] theorem storeHead_phase (b : Byte) (s : State) : (storeHead b s).phase = s.phase := rfl
@[simp] theorem storeHead_transport (b : Byte) (s : State) : (storeHead b s).transport = s.transport := rfl
@[simp] theorem loadAnswer_phase (d : Vector Byte 32) (s : State) : (loadAnswer d s).phase = s.phase := rfl
@[simp] theorem loadAnswer_transport (d : Vector Byte 32) (s : State) : (loadAnswer d s).transport = s.transport := rfl

section
variable (s : State)

@[simp] theorem fbsReset_result : (fbsReset s).result = .none := rfl
@[simp] theorem fbsReset_busy : (fbsReset s).busy = false := rfl
@[simp] theorem fbsReset_doneFlag : (fbsReset s).doneFlag = false := rfl
@[simp] theorem fbsReset_valid : (fbsReset s).valid = false := rfl
@[simp] theorem fbsReset_transport : (fbsReset s).transport = .unbound := rfl
@[simp] theorem fbsReset_sra : (fbsReset s).sra = false := rfl
@[simp] theorem fbsReset_fields : (fbsReset s).fields = noReading := rfl
@[simp] theorem fbsReset_buf : (fbsReset s).buf = Memory.cleared := rfl
@[simp] theorem fbsReset_busReq : (fbsReset s).busReq = .none := rfl
@[simp] theorem fbsReset_busAns : (fbsReset s).busAns = Option.none := rfl
@[simp] theorem fbsReset_phase : (fbsReset s).phase = .idle := rfl
@[simp] theorem fbsReset_disc : (fbsReset s).disc = 0 := rfl
@[simp] theorem fbsReset_n : (fbsReset s).n = 0 := rfl
@[simp] theorem fbsReset_rxq : (fbsReset s).rxq = s.rxq := rfl

end

/-! The verdict of CHECK. -/

theorem verdict_ne_none (m : Memory) : verdict m ≠ .none := by
  unfold verdict
  split
  · simp
  · split <;> simp

/-- OK is given exactly to a right header over a right checksum (R160). -/
theorem verdict_ok_iff (m : Memory) : verdict m = .ok ↔ headerOK m = true ∧ checksum m = checksumField m := by
  unfold verdict
  split
  · simp_all
  · split <;> simp_all

theorem headerOK_iff (m : Memory) : headerOK m = true ↔ m.read 0 = 0x42 ∧ m.read 1 = 0x4D := by
  simp [headerOK, Config.hdr0, Config.hdr1]

/-! One inversion for the Engine steps of both attaches. -/

/-- Every next state an Engine step of an attach can answer, one case for each way (R101, R105). -/
inductive AttachCase (s t : State) : Prop
  | probe (ho : s.op = .attachBus) (hp : s.phase = .dispatch)
      (ht : t = toPhase .probeWait (busProbe Config.busAddr s))
  | bindBus (ho : s.op = .attachBus) (hp : s.phase = .probeWait) (ha : s.busAns = some .ack)
      (ht : t = finish .ok noReading (bind .bus s))
  | notFound (ho : s.op = .attachBus) (hp : s.phase = .probeWait) (ha : s.busAns = some .nack)
      (ht : t = finish .deviceNotFound noReading s)
  | bindStream (ho : s.op = .attachStream) (hp : s.phase = .dispatch) (ht : t = finish .ok noReading (bind .stream s))
  | wait (ht : t = s)

theorem attachBusEngine_cases {s t : State} (ho : s.op = .attachBus) (h : attachBusEngine s = .next t) :
    AttachCase s t := by
  rcases attachBusEngine_next h with ⟨hp, ht⟩ | ⟨hp, ha, ht⟩ | ⟨hp, ha, ht⟩ | ⟨_, ht⟩
  · exact .probe ho hp ht
  · exact .bindBus ho hp ha ht
  · exact .notFound ho hp ha ht
  · exact .wait ht

theorem attachStreamEngine_cases {s t : State} (ho : s.op = .attachStream) (h : attachStreamEngine s = .next t) :
    AttachCase s t := by
  rcases attachStreamEngine_next h with ⟨hp, ht⟩ | ⟨_, ht⟩
  · exact .bindStream ho hp ht
  · exact .wait ht

/-- Taking the next move touches `agenda` and `draws` only. -/
theorem takeEvent_eq (s : State) :
    takeEvent s = { s with agenda := (takeEvent s).agenda, draws := (takeEvent s).draws } := by
  unfold takeEvent
  split <;> rfl

end Sys2Proof.Machine
end

section
/-! PROOFS. The control state: what each update and each move keeps of `ControlInv`. -/

namespace Sys2Proof.Machine

/-- Completion with any code but NONE makes any control state a coherent idle one (R35). -/
theorem finish_controlInv {code : ResultCode} (hc : code ≠ .none) (f : Reading) (s : State) :
    ControlInv (finish code f s) :=
  ⟨by simp, by simp, by simpa using hc, by simp [reqOfPhase], by simp, by simp [opOfPhase]⟩

namespace ControlInv

variable {s : State} (h : ControlInv s)
include h

/-- A running phase may follow a running phase when the bus request, its answer and the operation fit it. -/
theorem to_running_phase {p : Phase} (hs : s.phase ≠ .idle) (hp : p ≠ .idle) (hq : reqOfPhase p s.busReq)
    (ho : opOfPhase p s.op s.transport) : ControlInv (toPhase p s) :=
  ⟨by simpa [hp] using h.busy_iff.mpr hs, h.done_idle, h.result_none, hq, h.answer, ho⟩

theorem accept (hb : s.busy = false) (i : Instr) : ControlInv (Machine.accept i s) := by
  obtain ⟨hq, ha⟩ := h.idle_no_request hb
  exact ⟨by simp, by simp, by simp, by simp [reqOfPhase, hq], by simp [ha], by simp [opOfPhase]⟩

theorem take : ControlInv (takeEvent s) := by
  rw [takeEvent_eq]
  exact { h with }

theorem attachCase {t : State} (hc : AttachCase s t) : ControlInv t := by
  cases hc with
  | probe ho hp ht =>
    have hb : s.busy = true := h.busy_iff.mpr (by simp [hp])
    subst ht
    exact ⟨by simp [hb], h.done_idle, h.result_none, by simp [reqOfPhase], by simp, by simp [opOfPhase, ho]⟩
  | bindBus _ _ _ ht | notFound _ _ _ ht | bindStream _ _ ht => exact ht ▸ finish_controlInv (by simp) _ _
  | wait ht => exact ht ▸ h

theorem decodeCase (ho : s.op = .decode) {t : State} (hc : DecodeCase s t) : ControlInv t := by
  have hreq := h.req
  have hop := h.op
  cases hc with
  | busRequest hp hb ht =>
    have hbusy : s.busy = true := h.busy_iff.mpr (by simp [hp])
    subst ht
    exact ⟨by simp [hbusy], h.done_idle, h.result_none, by simp [reqOfPhase], by simp, by simp [opOfPhase, ho, hb]⟩
  | scanStart hp hb _ ht =>
    rw [hp] at hreq
    exact ht ▸ h.to_running_phase (by simp [hp]) (by simp) hreq ⟨ho, hb⟩
  | busData d hp _ ht =>
    subst ht
    have hl : ControlInv (loadAnswer d s) := { h with }
    rw [hp] at hreq hop
    exact hl.to_running_phase (by simp [hp]) (by simp) (.inr hreq) ⟨ho, by simp [hop.2]⟩
  | exhaustedFill hp _ _ ht | marker _ hp _ ht =>
    rw [hp] at hreq hop
    exact ht ▸ h.to_running_phase (by simp [hp]) (by simp) hreq hop
  | discard b rest hp _ _ _ ht => exact ht ▸ { h with }
  | store b rest hp _ _ ht =>
    have hs : ControlInv (storeHead b s) := { h with }
    rw [hp] at hreq hop
    rw [ht, fillNext_eq]
    split
    · exact hs.to_running_phase (by simp [hp]) (by simp) (.inl hreq) ⟨ho, by simp [hop.2]⟩
    · exact { hs with }
  | check _ ht => exact ht ▸ finish_controlInv (verdict_ne_none _) _ _
  | wait ht => exact ht ▸ h
  | unbound _ _ ht | noData _ _ _ ht | busFail _ _ ht | exhaustedFail _ _ _ ht | bound _ _ ht =>
    exact ht ▸ finish_controlInv (by simp) _ _

theorem shortTransfer (hp : s.phase = .fill) : ControlInv (Machine.shortTransfer s) := by
  obtain ⟨hreq, hop⟩ := And.intro h.req h.op
  rw [hp] at hreq hop
  rcases shortTransfer_cases s with ⟨_, hs⟩ | ⟨_, hs⟩
  · exact hs ▸ finish_controlInv (by simp) _ _
  · exact hs ▸ h.to_running_phase (by simp [hp]) (by simp) (.inl hreq) ⟨hop.1, by simp [hop.2]⟩

end ControlInv

theorem fbsReset_controlInv (s : State) : ControlInv (fbsReset s) :=
  ⟨by simp, by simp, by simp, by simp [reqOfPhase], by simp, trivial⟩

theorem ControlInv.moveCase {e : Event} {s t : State} (h : ControlInv s) (hc : MoveCase e s t) : ControlInv t := by
  cases hc with
  | accept w i _ _ hb _ ht =>
    have h' : ControlInv { s with hostPc := s.hostPc + 1 } := { h with }
    exact ht ▸ h'.accept hb i
  | acceptDecode w _ _ hb ht =>
    have h' : ControlInv (startDecode { s with hostPc := s.hostPc + 1 }) := { h with }
    exact ht ▸ h'.accept hb .decode
  | config w _ _ ht => exact ht ▸ { h with }
  | hostOnly pc last _ ht => exact ht ▸ { h with }
  | attachBus _ _ ho he => exact h.attachCase (attachBusEngine_cases ho he)
  | attachStream _ _ ho he => exact h.attachCase (attachStreamEngine_cases ho he)
  | decode _ _ ho he => exact h.decodeCase ho (decodeEngine_cases he)
  | append b _ ht => exact ht ▸ { h with }
  | short _ hp _ _ ht => exact ht ▸ h.shortTransfer hp
  | answer r _ _ hr ht => exact ht ▸ { h with answer := fun q hq => Option.some.inj hq ▸ hr }
  | reset _ ht => exact ht ▸ fbsReset_controlInv s
  | nothing _ ht => exact ht ▸ h

/-- Settles O55: each move of each agent keeps `ControlInv`. -/
theorem stepKeepsControlInv : Obligations.StepKeepsControlInv :=
  fun _ _ h hs => h.take.moveCase (step_next hs)

end Sys2Proof.Machine
end

section
/-! PROOFS. The acquisition: what each update and each move keeps of `BufferInv`. -/

namespace Sys2Proof.Machine

theorem fbsReset_bufferInv (s : State) : BufferInv (fbsReset s) :=
  ⟨by simp, by simp, by simp, by simp, by simp, by simp, by simp⟩

/-- A DECODE starts over the cleared buffer with both counters 0 (R80). -/
theorem acceptDecode_bufferInv (s : State) : BufferInv (accept .decode (startDecode s)) :=
  ⟨by simp, by simp, by simp, by simp, by simp, by simp, by simp⟩

namespace BufferInv

variable {s : State} (h : BufferInv s)
include h

theorem finish (code : ResultCode) (f : Reading) : BufferInv (Machine.finish code f s) :=
  { h with fresh := by simp, scan_empty := by simp, fill_room := by simp, rest_zero := by simp }

/-- A phase other than DISPATCH may come next when the fill counter fits it. -/
theorem toPhase {p : Phase} (hd : p ≠ .dispatch) (hs : p = .scan → s.n = 0) (hf : p = .fill → s.n < 32) :
    BufferInv (Machine.toPhase p s) :=
  { h with fresh := fun _ hp => absurd hp hd, scan_empty := hs, fill_room := hf }

theorem acceptAttach {i : Instr} (hi : i ≠ .decode) : BufferInv (accept i s) :=
  { h with
    fresh := fun ho => absurd ho hi
    scan_empty := by simp
    fill_room := by simp
    rest_zero := fun hd => absurd hd.2 hi }

theorem take : BufferInv (takeEvent s) := by
  rw [takeEvent_eq]
  exact { h with }

theorem attachCase {t : State} (hc : AttachCase s t) : BufferInv t := by
  have hbind (b : Transport) : BufferInv (bind b s) := { h with }
  cases hc with
  | probe _ _ ht =>
    have hq : BufferInv (busProbe Config.busAddr s) := { h with }
    exact ht ▸ hq.toPhase (by simp) (by simp) (by simp)
  | bindBus _ _ _ ht => exact ht ▸ (hbind .bus).finish _ _
  | notFound _ _ _ ht => exact ht ▸ h.finish _ _
  | bindStream _ _ ht => exact ht ▸ (hbind .stream).finish _ _
  | wait ht => exact ht ▸ h

/-- The 32 bytes of an answer fill the buffer, and nothing is beyond them (R123). -/
theorem busData (d : Vector Byte 32) : BufferInv (Machine.toPhase .check (loadAnswer d s)) where
  wf := Memory.writeBytes_wf h.wf (by simp)
  disc_le := h.disc_le
  n_le := Nat.le_refl 32
  fresh := by simp
  scan_empty := by simp
  fill_room := by simp
  rest_zero := fun hd i hi => by
    have hi : 32 ≤ i := hi
    have hz : s.buf.read i = 0x00 := h.rest_zero hd i (h.n_le.trans hi)
    exact (Memory.read_writeBytes_out _ _ (by simp [hi])).trans hz

/-- The head byte stored at index n leaves 0x00 above it (R135, R138). -/
theorem store (b : Byte) (hp : s.phase = .fill) (hn : s.n < 32) : BufferInv (fillNext (storeHead b s)) := by
  have hnext : fillNext (storeHead b s) =
      Machine.toPhase (if s.n + 1 = 32 then .check else .fill) (storeHead b s) := by
    rw [fillNext_eq, storeHead_n, storeHead_phase, hp]
  rw [hnext]
  exact {
    wf := Memory.write_wf h.wf hn b
    disc_le := h.disc_le
    n_le := hn
    fresh := by simp [ite_eq_iff]
    scan_empty := by simp [ite_eq_iff]
    fill_room := fun hf => by
      have hne : s.n + 1 ≠ 32 := fun he => by simp [he] at hf
      exact Nat.lt_of_le_of_ne hn hne
    rest_zero := fun hd i hi =>
      (Memory.read_write_ne s.buf b (Nat.ne_of_gt hi)).trans (h.rest_zero hd i (Nat.le_of_succ_le hi)) }

theorem decodeCase (ho : s.op = .decode) {t : State} (hc : DecodeCase s t) : BufferInv t := by
  cases hc with
  | busRequest hp hb ht =>
    have hq : BufferInv (busRead Config.busAddr Config.busReadLen s) := { h with }
    exact ht ▸ hq.toPhase (by simp) (by simp) (by simp)
  | scanStart hp _ _ ht => exact ht ▸ h.toPhase (by simp) (fun _ => h.fresh ho hp) (by simp)
  | busData d _ _ ht => exact ht ▸ h.busData d
  | exhaustedFill hp _ _ ht | marker _ hp _ ht =>
    exact ht ▸ h.toPhase (by simp) (by simp) (fun _ => by simp [h.scan_empty hp])
  | discard _ _ _ _ _ hd ht =>
    have hle : s.disc + 1 ≤ 32 := Nat.lt_of_le_of_ne h.disc_le hd
    exact ht ▸ { h with disc_le := hle }
  | store b _ hp _ hn ht => exact ht ▸ h.store b hp hn
  | check _ ht => exact ht ▸ h.finish _ _
  | wait ht => exact ht ▸ h
  | unbound _ _ ht | noData _ _ _ ht | busFail _ _ ht | exhaustedFail _ _ _ ht | bound _ _ ht =>
    exact ht ▸ h.finish _ _

theorem shortTransfer : BufferInv (Machine.shortTransfer s) := by
  rcases shortTransfer_cases s with ⟨_, hs⟩ | ⟨_, hs⟩
  · exact hs ▸ h.finish _ _
  · exact hs ▸ h.toPhase (by simp) (by simp) (by simp)

theorem moveCase {e : Event} {t : State} (hc : MoveCase e s t) : BufferInv t := by
  cases hc with
  | accept _ i _ _ _ hi ht =>
    have h' : BufferInv { s with hostPc := s.hostPc + 1 } := { h with }
    exact ht ▸ h'.acceptAttach hi
  | acceptDecode _ _ _ _ ht => exact ht ▸ acceptDecode_bufferInv _
  | config _ _ _ ht | hostOnly _ _ _ ht | append _ _ ht | answer _ _ _ _ ht => exact ht ▸ { h with }
  | attachBus _ _ ho he => exact h.attachCase (attachBusEngine_cases ho he)
  | attachStream _ _ ho he => exact h.attachCase (attachStreamEngine_cases ho he)
  | decode _ _ ho he => exact h.decodeCase ho (decodeEngine_cases he)
  | short _ _ _ _ ht => exact ht ▸ h.shortTransfer
  | reset _ ht => exact ht ▸ fbsReset_bufferInv s
  | nothing _ ht => exact ht ▸ h

end BufferInv

/-- Settles O56: each move of each agent keeps `BufferInv`, whatever the control state is. -/
theorem stepKeepsBufferInv : Obligations.StepKeepsBufferInv :=
  fun _ _ h hs => h.take.moveCase (step_next hs)

end Sys2Proof.Machine
end

section
/-! PROOFS. Frame bytes as sums: the checksum of a buffer, and the sum a Reading's frame has. -/

namespace Sys2Proof.Machine

/-- A sum over 2 + 2n indices is the first two terms and then the pairs of a frame's fields. -/
theorem sum_range_header_pairs (g : Nat → Nat) (n : Nat) :
    ((List.range (2 + 2 * n)).map g).sum =
      g 0 + g 1 + ((List.range n).map fun k => g (2 + 2 * k) + g (3 + 2 * k)).sum := by
  induction n with
  | zero => rfl
  | succ n ih =>
    have hlen : 2 + 2 * (n + 1) = (2 + 2 * n) + 1 + 1 := by omega
    rw [hlen, List.range_succ, List.range_succ, List.range_succ]
    simp only [List.map_append, List.sum_append, ih, List.map_cons, List.map_nil, List.sum_singleton]
    rw [show 2 + 2 * n + 1 = 3 + 2 * n by omega]
    omega

/-- The exact sum of bytes 0..29 is at most 7650 (R165). -/
theorem bufferSum_le (m : Memory) : bufferSum m ≤ 7650 := by
  have h := sum_map_toNat_le ((List.range 30).map m.read)
  simpa [bufferSum, Function.comp_def] using h

/-- The accumulator is the exact sum of bytes 0..29 modulo 2^16 (R163, R164). -/
theorem checksum_toNat_mod (m : Memory) : (checksum m).toNat = bufferSum m % 65536 := by
  simpa [checksum, sumBytes, bufferSum, Config.sumLen, Function.comp_def] using
    foldl_accumulate_toNat ((List.range 30).map m.read) 0x0000#16

/-- The accumulator never wraps on thirty bytes (R165). -/
theorem checksum_toNat (m : Memory) : (checksum m).toNat = bufferSum m := by
  have hle := bufferSum_le m
  rw [checksum_toNat_mod, Nat.mod_eq_of_lt (by omega)]

theorem fieldOf_toNat (m : Memory) (k : Nat) :
    (fieldOf m k).toNat = 256 * (m.read (2 + 2 * k)).toNat + (m.read (3 + 2 * k)).toNat :=
  bigEndian_toNat _ _

/-- The two bytes of a field, taken apart again, are the pair it was assembled from. -/
theorem fieldOf_byte_sum (m : Memory) (k : Nat) :
    (fieldOf m k).toNat / 256 + (fieldOf m k).toNat % 256 =
      (m.read (2 + 2 * k)).toNat + (m.read (3 + 2 * k)).toNat := by
  have hlo := (m.read (3 + 2 * k)).isLt
  rw [fieldOf_toNat]
  omega

theorem unpack_toList_take (m : Memory) : (unpack m).toList.take 14 = (List.range 14).map (fieldOf m) := by
  refine List.ext_getElem (by simp) fun k hk _ => ?_
  simp [unpack]

/-- Under a right header, the sum of a buffer's Reading is the sum of the buffer's bytes 0..29 (R163, R171). -/
theorem readingSum_unpack {m : Memory} (h : headerOK m = true) : readingSum (unpack m) = bufferSum m := by
  obtain ⟨h0, h1⟩ := (headerOK_iff m).mp h
  have hpairs := sum_range_header_pairs (fun i => (m.read i).toNat) 14
  rw [h0, h1] at hpairs
  simp only [readingSum, unpack_toList_take, List.map_map, Function.comp_def, fieldOf_byte_sum]
  exact hpairs.symm

/-- A buffer whose verdict is OK unpacks to a Reading whose checksum field is its sum (R168, R176). -/
theorem unpack_checked {m : Memory} (h : verdict m = .ok) : ((unpack m)[14]).toNat = readingSum (unpack m) := by
  obtain ⟨hh, hc⟩ := (verdict_ok_iff m).mp h
  calc ((unpack m)[14]).toNat
      = (checksum m).toNat := by rw [hc, checksumField]
    _ = bufferSum m := checksum_toNat m
    _ = readingSum (unpack m) := (readingSum_unpack hh).symm

end Sys2Proof.Machine
end

section
/-! PROOFS. VALID and the Reading: what each update and each move keeps of `ReadingInv`. -/

namespace Sys2Proof.Machine

/-- Fifteen fields of 0x0000 with VALID = 0 and no DECODE in flight: what a failed DECODE and a reset leave
(R35, R37). -/
theorem readingInv_of_cleared {s : State} (hv : s.valid = false) (hf : s.fields = noReading) : ReadingInv s :=
  ⟨by simp [hv], fun _ _ => hf, fun _ => hv⟩

theorem fbsReset_readingInv (s : State) : ReadingInv (fbsReset s) :=
  readingInv_of_cleared rfl rfl

/-- An accepted DECODE has VALID = 0 and is in flight, whatever was there before (R80). -/
theorem acceptDecode_readingInv (s : State) : ReadingInv (accept .decode (startDecode s)) :=
  ⟨by simp, fun _ hd => absurd ⟨rfl, rfl⟩ hd, by simp⟩

/-- CHECK commits a Reading with VALID = 1 only over a right checksum, and clears both otherwise (R160, R176). -/
theorem decodeCheck_readingInv {s : State} (ho : s.op = .decode) : ReadingInv (decodeCheck s) := by
  rw [decodeCheck_eq]
  by_cases hv : verdict s.buf = .ok
  · rw [hv]
    exact ⟨fun _ => by simpa [ho] using unpack_checked hv, by simp [ho], by simp⟩
  · exact readingInv_of_cleared (by simp [ho, hv]) (by simp [ho, hv])

namespace ReadingInv

variable {s : State} (h : ReadingInv s)
include h

/-- An attach completes with FIELD0..14 and VALID as they were (R35). -/
theorem finish_attach (ho : s.op ≠ .decode) (code : ResultCode) (f : Reading) : ReadingInv (finish code f s) where
  checked := by simpa [ho] using h.checked
  cleared := fun hv _ => by
    simpa [ho] using h.cleared (by simpa [ho] using hv) fun hd => ho hd.2
  in_flight := by simp

theorem finish_error {code : ResultCode} (hc : code ≠ .ok) (f : Reading) : ReadingInv (finish code f s) := by
  by_cases ho : s.op = .decode
  · exact readingInv_of_cleared (by simp [ho, hc]) (by simp [ho, hc])
  · exact h.finish_attach ho code f

theorem acceptAttach (hb : s.busy = false) {i : Instr} (hi : i ≠ .decode) : ReadingInv (accept i s) :=
  { h with cleared := fun hv _ => h.cleared hv (by simp [hb]), in_flight := fun hd => absurd hd.2 hi }

theorem take : ReadingInv (takeEvent s) := by
  rw [takeEvent_eq]
  exact { h with }

theorem attachCase (ho : s.op ≠ .decode) {t : State} (hc : AttachCase s t) : ReadingInv t := by
  have hbind (b : Transport) : ReadingInv (bind b s) := { h with }
  cases hc with
  | probe _ _ ht => exact ht ▸ { h with }
  | bindBus _ _ _ ht => exact ht ▸ (hbind .bus).finish_attach ho _ _
  | bindStream _ _ ht => exact ht ▸ (hbind .stream).finish_attach ho _ _
  | notFound _ _ _ ht => exact ht ▸ h.finish_attach ho _ _
  | wait ht => exact ht ▸ h

theorem decodeCase (ho : s.op = .decode) {t : State} (hc : DecodeCase s t) : ReadingInv t := by
  cases hc with
  | busRequest _ _ ht | scanStart _ _ _ ht | busData _ _ _ ht | exhaustedFill _ _ _ ht | marker _ _ _ ht
  | discard _ _ _ _ _ _ ht => exact ht ▸ { h with }
  | store _ _ _ _ _ ht =>
    rw [ht, fillNext_eq]
    exact { h with }
  | check _ ht => exact ht ▸ decodeCheck_readingInv ho
  | wait ht => exact ht ▸ h
  | unbound _ _ ht | noData _ _ _ ht | busFail _ _ ht | exhaustedFail _ _ _ ht | bound _ _ ht =>
    exact ht ▸ h.finish_error (by simp) _

theorem shortTransfer : ReadingInv (Machine.shortTransfer s) := by
  rcases shortTransfer_cases s with ⟨_, hs⟩ | ⟨_, hs⟩
  · exact hs ▸ h.finish_error (by simp) _
  · exact hs ▸ { h with }

theorem moveCase {e : Event} {t : State} (hc : MoveCase e s t) : ReadingInv t := by
  cases hc with
  | accept _ i _ _ hb hi ht =>
    have h' : ReadingInv { s with hostPc := s.hostPc + 1 } := { h with }
    exact ht ▸ h'.acceptAttach hb hi
  | acceptDecode _ _ _ _ ht => exact ht ▸ acceptDecode_readingInv _
  | config _ _ _ ht | hostOnly _ _ _ ht | append _ _ ht | answer _ _ _ _ ht => exact ht ▸ { h with }
  | attachBus _ _ ho he => exact h.attachCase (by simp [ho]) (attachBusEngine_cases ho he)
  | attachStream _ _ ho he => exact h.attachCase (by simp [ho]) (attachStreamEngine_cases ho he)
  | decode _ _ ho he => exact h.decodeCase ho (decodeEngine_cases he)
  | short _ _ _ _ ht => exact ht ▸ h.shortTransfer
  | reset _ ht => exact ht ▸ fbsReset_readingInv s
  | nothing _ ht => exact ht ▸ h

end ReadingInv

/-- Settles O57: each move of each agent keeps `ReadingInv`; the checksum of CHECK is the sum of its Reading. -/
theorem stepKeepsReadingInv : Obligations.StepKeepsReadingInv :=
  fun _ _ h hs => h.take.moveCase (step_next hs)

end Sys2Proof.Machine
end

section
/-! PROOFS. What only certain moves change: the binding, CONFIG, the latch of an operation in flight, and the queue. -/

namespace Sys2Proof.Machine

/-- What no move of an operation in flight changes: CONFIG, the operation and its latch (R31, R202, R242). -/
structure KeepsOptions (s t : State) : Prop where
  sra : t.sra = s.sra
  op : t.op = s.op
  sraL : t.sraL = s.sraL

theorem AttachCase.keepsOptions {s t : State} (h : AttachCase s t) : KeepsOptions s t := by
  cases h with
  | probe _ _ ht | bindBus _ _ _ ht | notFound _ _ _ ht | bindStream _ _ ht | wait ht => exact ht ▸ ⟨rfl, rfl, rfl⟩

theorem AttachCase.rxq_eq {s t : State} (h : AttachCase s t) : t.rxq = s.rxq := by
  cases h with
  | probe _ _ ht | bindBus _ _ _ ht | notFound _ _ _ ht | bindStream _ _ ht | wait ht => exact ht ▸ rfl

/-- An attach changes the binding only in the step that completes it with OK (R101, R105). -/
theorem AttachCase.transport_eq_or {s t : State} (h : AttachCase s t) :
    t.transport = s.transport ∨
    (t.busy = false ∧ t.doneFlag = true ∧ t.result = .ok ∧
      ((s.op = .attachBus ∧ s.phase = .probeWait ∧ s.busAns = some .ack ∧ t.transport = .bus) ∨
       (s.op = .attachStream ∧ t.transport = .stream))) := by
  cases h with
  | bindBus ho hp ha ht => exact .inr (ht ▸ ⟨rfl, rfl, rfl, .inl ⟨ho, hp, ha, rfl⟩⟩)
  | bindStream ho _ ht => exact .inr (ht ▸ ⟨rfl, rfl, rfl, .inr ⟨ho, rfl⟩⟩)
  | probe _ _ ht | notFound _ _ _ ht | wait ht => exact .inl (ht ▸ rfl)

/-- No Engine step of a DECODE changes CONFIG, the latch or the binding (R120, R202). -/
theorem DecodeCase.frame {s t : State} (h : DecodeCase s t) : KeepsOptions s t ∧ t.transport = s.transport := by
  cases h with
  | store _ _ _ _ _ ht =>
    rw [ht, fillNext_eq]
    exact ⟨⟨rfl, rfl, rfl⟩, rfl⟩
  | unbound _ _ ht | busRequest _ _ ht | noData _ _ _ ht | scanStart _ _ _ ht | busData _ _ _ ht | busFail _ _ ht
  | exhaustedFail _ _ _ ht | exhaustedFill _ _ _ ht | marker _ _ _ ht | bound _ _ ht | discard _ _ _ _ _ _ ht
  | check _ ht | wait ht => exact ht ▸ ⟨⟨rfl, rfl, rfl⟩, rfl⟩

/-- A DECODE takes at most the queue's head byte, and that only in SCAN or FILL (R132, R135). -/
theorem DecodeCase.rxq_eq_or {s t : State} (h : DecodeCase s t) :
    t.rxq = s.rxq ∨ (∃ b, (s.phase = .scan ∨ s.phase = .fill) ∧ s.rxq = b :: t.rxq) := by
  cases h with
  | discard b rest hp hq _ _ ht =>
    refine .inr ⟨b, .inl hp, ?_⟩
    rw [ht, discardHead_rxq, hq, List.tail_cons]
  | store b rest hp hq _ ht =>
    refine .inr ⟨b, .inr hp, ?_⟩
    rw [ht, fillNext_eq, toPhase_rxq, storeHead_rxq, hq, List.tail_cons]
  | unbound _ _ ht | busRequest _ _ ht | noData _ _ _ ht | scanStart _ _ _ ht | busData _ _ _ ht | busFail _ _ ht
  | exhaustedFail _ _ _ ht | exhaustedFill _ _ _ ht | marker _ _ _ ht | bound _ _ ht
  | check _ ht | wait ht => exact .inl (ht ▸ rfl)

/-- The short transfer leaves the binding, CONFIG, the latch and the queue (R137). -/
theorem shortTransfer_frame (s : State) :
    KeepsOptions s (shortTransfer s) ∧ (shortTransfer s).transport = s.transport ∧ (shortTransfer s).rxq = s.rxq := by
  rcases shortTransfer_cases s with ⟨_, hs⟩ | ⟨_, hs⟩ <;> rw [hs] <;> exact ⟨⟨rfl, rfl, rfl⟩, rfl, rfl⟩

namespace MoveCase

variable {e : Event} {s t : State}

/-- The binding after one move: as it was, reset, or the transport of the attach that completes. -/
theorem transport_eq_or (h : MoveCase e s t) :
    t.transport = s.transport ∨ e = .reset ∨
    (s.busy = true ∧ t.busy = false ∧ t.doneFlag = true ∧ t.result = .ok ∧
      ((s.op = .attachBus ∧ s.phase = .probeWait ∧ s.busAns = some .ack ∧ t.transport = .bus) ∨
       (s.op = .attachStream ∧ t.transport = .stream))) := by
  cases h with
  | attachBus _ hb ho he =>
    exact (attachBusEngine_cases ho he).transport_eq_or.imp_right fun hc => .inr ⟨hb, hc⟩
  | attachStream _ hb ho he =>
    exact (attachStreamEngine_cases ho he).transport_eq_or.imp_right fun hc => .inr ⟨hb, hc⟩
  | decode _ _ _ he => exact .inl (decodeEngine_cases he).frame.2
  | short _ _ _ _ ht => exact .inl (ht ▸ (shortTransfer_frame s).2.1)
  | reset he _ => exact .inr (.inl he)
  | accept _ _ _ _ _ _ ht | acceptDecode _ _ _ _ ht | config _ _ _ ht | hostOnly _ _ _ ht | append _ _ ht
  | answer _ _ _ _ ht | nothing _ ht => exact .inl (ht ▸ rfl)

/-- CONFIG.SRA after one move: as it was, reset, or as the Host's write to CONFIG sets it. -/
theorem sra_eq_or (h : MoveCase e s t) :
    t.sra = s.sra ∨ e = .reset ∨
    (e = .host ∧ ∃ w, s.hostProg[s.hostPc]? = some (hostWr configAddr w) ∧ t.sra = w.getLsbD 0) := by
  cases h with
  | config w he hl ht => exact .inr (.inr ⟨he, w, hl, ht ▸ rfl⟩)
  | attachBus _ _ ho he => exact .inl (attachBusEngine_cases ho he).keepsOptions.sra
  | attachStream _ _ ho he => exact .inl (attachStreamEngine_cases ho he).keepsOptions.sra
  | decode _ _ _ he => exact .inl (decodeEngine_cases he).frame.1.sra
  | short _ _ _ _ ht => exact .inl (ht ▸ (shortTransfer_frame s).1.sra)
  | reset he _ => exact .inr (.inl he)
  | accept _ _ _ _ _ _ ht | acceptDecode _ _ _ _ ht | hostOnly _ _ _ ht | append _ _ ht | answer _ _ _ _ ht
  | nothing _ ht => exact .inl (ht ▸ rfl)

/-- While BUSY = 1 no move but reset changes the operation or its latch: only an idle FBS accepts a command. -/
theorem latch_eq (h : MoveCase e s t) (hbusy : s.busy = true) (hr : e ≠ .reset) : t.op = s.op ∧ t.sraL = s.sraL := by
  have of_keeps (hk : KeepsOptions s t) : t.op = s.op ∧ t.sraL = s.sraL := ⟨hk.op, hk.sraL⟩
  cases h with
  | accept _ _ _ _ hb _ _ | acceptDecode _ _ _ hb _ => exact absurd (hbusy.symm.trans hb) (by simp)
  | attachBus _ _ ho he => exact of_keeps (attachBusEngine_cases ho he).keepsOptions
  | attachStream _ _ ho he => exact of_keeps (attachStreamEngine_cases ho he).keepsOptions
  | decode _ _ _ he => exact of_keeps (decodeEngine_cases he).frame.1
  | short _ _ _ _ ht => exact of_keeps (ht ▸ (shortTransfer_frame s).1)
  | reset he _ => exact absurd he hr
  | config _ _ _ ht | hostOnly _ _ _ ht | append _ _ ht | answer _ _ _ _ ht | nothing _ ht => exact ht ▸ ⟨rfl, rfl⟩

/-- The queue after one move: as it was, with a byte more at its tail, or without its head byte. -/
theorem rxq_eq_or (h : MoveCase e s t) :
    t.rxq = s.rxq ∨ (∃ b, e = .append b ∧ t.rxq = s.rxq ++ [b]) ∨
    (∃ b, e = .engine ∧ Decoding s ∧ (s.phase = .scan ∨ s.phase = .fill) ∧ s.rxq = b :: t.rxq) := by
  cases h with
  | append b he ht => exact .inr (.inl ⟨b, he, ht ▸ rfl⟩)
  | decode hen hb ho he =>
    exact (decodeEngine_cases he).rxq_eq_or.imp_right fun ⟨b, hp, hq⟩ => .inr ⟨b, hen, ⟨hb, ho⟩, hp, hq⟩
  | attachBus _ _ ho he => exact .inl (attachBusEngine_cases ho he).rxq_eq
  | attachStream _ _ ho he => exact .inl (attachStreamEngine_cases ho he).rxq_eq
  | short _ _ _ _ ht => exact .inl (ht ▸ (shortTransfer_frame s).2.2)
  | accept _ _ _ _ _ _ ht | acceptDecode _ _ _ _ ht | config _ _ _ ht | hostOnly _ _ _ ht | answer _ _ _ _ ht
  | reset _ ht | nothing _ ht => exact .inl (ht ▸ rfl)

end MoveCase

/-- Settles O49, from the binding after each move. -/
theorem bindingChangesOnlyByAttach : Obligations.BindingChangesOnlyByAttach := by
  intro s t hs hne
  simpa [hne] using (step_next hs).transport_eq_or

/-- Settles O50, from CONFIG.SRA after each move. -/
theorem configChangesOnlyByTheHost : Obligations.ConfigChangesOnlyByTheHost := by
  intro s t hs hne
  simpa [hne] using (step_next hs).sra_eq_or

/-- Settles O51: a busy FBS accepts no command, and its own moves keep the latch. -/
theorem latchHoldsWhileBusy : Obligations.LatchHoldsWhileBusy := by
  intro s t hs hb hr
  simpa using (step_next hs).latch_eq (by simpa using hb) hr

/-- Settles O52, from the queue after each move. -/
theorem queueIsFifo : Obligations.QueueIsFifo := by
  intro s t hs
  simpa [Decoding] using (step_next hs).rxq_eq_or

end Sys2Proof.Machine
end

section
/-! PROOFS. Two machines in the same operation: every shared update keeps `SameOperation`, so every move does (R34). -/

namespace Sys2Proof.Machine

/-- Two outcomes are the same but for what `SameOperation` leaves open: next states in the same operation, or the
same stop. -/
inductive SameOutcome : Outcome → Outcome → Prop
  | next {t₁ t₂ : State} (h : SameOperation t₁ t₂) : SameOutcome (.next t₁) (.next t₂)
  | fault (f : Fault) : SameOutcome (.fault f) (.fault f)
  | refused (r : Refusal) : SameOutcome (.refused r) (.refused r)

theorem SameOutcome.exists_next {o : Outcome} {t₁ : State} (h : SameOutcome (.next t₁) o) :
    ∃ t₂, o = .next t₂ ∧ SameOperation t₁ t₂ := by
  cases h with
  | next h => exact ⟨_, rfl, h⟩

theorem SameOutcome.eq_fault {o : Outcome} {f : Fault} (h : SameOutcome (.fault f) o) : o = .fault f := by
  cases h
  rfl

/-- Whatever two idle machines held, a DECODE accepted with the same binding, CONFIG.SRA and queue, and no request
outstanding, starts them in the same operation (R34, R80). -/
theorem sameOperation_acceptDecode {s₁ s₂ : State} (ht : s₁.transport = s₂.transport) (hs : s₁.sra = s₂.sra)
    (hq : s₁.rxq = s₂.rxq) (hr : s₁.busReq = s₂.busReq) (ha : s₁.busAns = s₂.busAns) :
    SameOperation (accept .decode (startDecode s₁)) (accept .decode (startDecode s₂)) :=
  ⟨rfl, rfl, rfl, rfl, ht, hs, rfl, hr, ha, rfl, rfl, hs, rfl, rfl, hq, fun hd => absurd ⟨rfl, rfl⟩ hd⟩

theorem sameOperation_fbsReset {s₁ s₂ : State} (hq : s₁.rxq = s₂.rxq) :
    SameOperation (fbsReset s₁) (fbsReset s₂) :=
  ⟨rfl, rfl, rfl, rfl, rfl, rfl, rfl, rfl, rfl, rfl, rfl, rfl, rfl, rfl, hq, fun _ => rfl⟩

/-! Updates. -/

namespace SameOperation

variable {s₁ s₂ : State} (h : SameOperation s₁ s₂)
include h

theorem toPhase (p : Phase) : SameOperation (toPhase p s₁) (toPhase p s₂) :=
  { h with phase := rfl }

theorem bind (b : Transport) : SameOperation (bind b s₁) (bind b s₂) :=
  { h with transport := rfl }

theorem busProbe (a : BusAddr) : SameOperation (busProbe a s₁) (busProbe a s₂) :=
  { h with busReq := rfl, busAns := rfl }

theorem busRead (a : BusAddr) (len : Nat) : SameOperation (busRead a len s₁) (busRead a len s₂) :=
  { h with busReq := rfl, busAns := rfl }

theorem loadAnswer (d : Vector Byte 32) : SameOperation (loadAnswer d s₁) (loadAnswer d s₂) :=
  { h with buf := congrArg (Memory.writeBytes · 0 d.toList) h.buf, n := rfl }

theorem discardHead : SameOperation (discardHead s₁) (discardHead s₂) :=
  { h with disc := congrArg (· + 1) h.disc, rxq := congrArg List.tail h.rxq }

theorem storeHead (b : Byte) : SameOperation (storeHead b s₁) (storeHead b s₂) :=
  { h with
    buf := congrArg₂ (Memory.write · · b) h.buf h.n
    n := congrArg (· + 1) h.n
    rxq := congrArg List.tail h.rxq }

/-- Completion: a DECODE writes the same fields in both, and an attach leaves fields that are the same already (R35). -/
theorem finish (code : ResultCode) (f : Reading) : SameOperation (finish code f s₁) (finish code f s₂) := by
  by_cases ho : s₁.op = .decode
  · have ho₂ : s₂.op = .decode := h.op ▸ ho
    exact { h with
      result := rfl, busy := rfl, doneFlag := rfl, busReq := rfl, busAns := rfl, phase := rfl
      valid := by simp [ho, ho₂]
      fields := fun _ => by simp [fieldsAtFinish, ho, ho₂] }
  · have ho₂ : s₂.op ≠ .decode := h.op ▸ ho
    exact { h with
      result := rfl, busy := rfl, doneFlag := rfl, busReq := rfl, busAns := rfl, phase := rfl
      valid := by simp [ho, ho₂, h.valid]
      fields := fun _ => by simpa [ho, ho₂] using h.fields fun hd => ho hd.2 }

theorem accept (i : Instr) (hb : s₁.busy = false) : SameOperation (accept i s₁) (accept i s₂) :=
  { h with
    result := rfl, busy := rfl, doneFlag := rfl, phase := rfl, op := rfl
    fields := fun _ => h.fields (by simp [hb]) }

/-! Engine steps. -/

theorem attachBusEngine : SameOutcome (attachBusEngine s₁) (attachBusEngine s₂) := by
  unfold Machine.attachBusEngine attachBusProbed
  rw [← h.phase, ← h.busAns]
  split
  · exact .next ((h.busProbe _).toPhase _)
  · split
    · exact .next ((h.bind _).finish _ _)
    · exact .next (h.finish _ _)
    all_goals exact .next h
  all_goals exact .next h

theorem attachStreamEngine : SameOutcome (attachStreamEngine s₁) (attachStreamEngine s₂) := by
  unfold Machine.attachStreamEngine
  rw [← h.phase]
  split
  · exact .next ((h.bind _).finish _ _)
  all_goals exact .next h

theorem decodeDispatch : SameOperation (decodeDispatch s₁) (decodeDispatch s₂) := by
  unfold Machine.decodeDispatch streamCount
  rw [← h.transport, ← h.rxq]
  split
  · exact h.finish _ _
  · exact (h.busRead _ _).toPhase _
  · split
    · exact h.finish _ _
    · exact h.toPhase _

theorem decodeBusAnswered : SameOperation (decodeBusAnswered s₁) (decodeBusAnswered s₂) := by
  unfold Machine.decodeBusAnswered
  rw [← h.busAns]
  split
  · exact (h.loadAnswer _).toPhase _
  · exact h.finish _ _
  all_goals exact h

theorem decodeScan : SameOperation (decodeScan s₁) (decodeScan s₂) := by
  unfold Machine.decodeScan exhausted streamPeek
  rw [← h.rxq, ← h.disc, ← h.sraL]
  split
  · split
    · exact h.finish _ _
    · exact h.toPhase _
  · split
    · exact h.toPhase _
    · split
      · exact h.finish _ _
      · exact h.discardHead

theorem fillNext : SameOperation (fillNext s₁) (fillNext s₂) := by
  rw [fillNext_eq, fillNext_eq, ← h.n, ← h.phase]
  exact h.toPhase _

theorem decodeFill : SameOutcome (decodeFill s₁) (decodeFill s₂) := by
  unfold Machine.decodeFill streamPeek
  rw [← h.rxq, ← h.n]
  split
  · exact .next h
  · split
    · exact .next (h.storeHead _).fillNext
    · exact .fault _

theorem decodeCheck : SameOperation (decodeCheck s₁) (decodeCheck s₂) := by
  rw [decodeCheck_eq, decodeCheck_eq, ← h.buf]
  exact h.finish _ _

theorem decodeEngine : SameOutcome (decodeEngine s₁) (decodeEngine s₂) := by
  unfold Machine.decodeEngine
  rw [← h.phase]
  split
  · exact .next h.decodeDispatch
  · exact .next h.decodeBusAnswered
  · exact .next h.decodeScan
  · exact h.decodeFill
  · exact .next h.decodeCheck
  all_goals exact .next h

/-! Moves. -/

theorem commandMove (i : Instr) {a : State → State} {e : State → Outcome}
    (ha : s₁.busy = false → SameOperation (a s₁) (a s₂)) (he : SameOutcome (e s₁) (e s₂)) :
    SameOutcome (commandMove i a e s₁) (commandMove i a e s₂) := by
  unfold Machine.commandMove
  rw [← h.busy, ← h.op]
  split
  · exact .next (ha ‹_›)
  · split
    · exact he
    · exact .fault _

theorem exec (i : Instr) : SameOutcome (exec i s₁) (exec i s₂) := by
  cases i with
  | attachBus => exact h.commandMove _ (h.accept _) h.attachBusEngine
  | attachStream => exact h.commandMove _ (h.accept _) h.attachStreamEngine
  | decode =>
    exact h.commandMove _ (a := fun s => Machine.accept .decode (startDecode s))
      (fun _ => sameOperation_acceptDecode h.transport h.sra h.rxq h.busReq h.busAns) h.decodeEngine

theorem commandWrite (w : Word) : SameOutcome (commandWrite w s₁) (commandWrite w s₂) := by
  unfold Machine.commandWrite
  rw [← h.busy]
  split
  · exact .fault _
  · split
    · exact h.exec _
    · exact .next h

theorem hostWrite (a : RegAddr) (w : Word) : SameOutcome (hostWrite a w s₁) (hostWrite a w s₂) := by
  unfold Machine.hostWrite
  split
  · exact h.commandWrite w
  · exact .next { h with sra := rfl }
  all_goals exact .next h

/-- A read gives each Host the value of its own FBS and changes nothing else (R56). -/
theorem hostAccess (a : HostAccess) : SameOutcome (hostAccess a s₁) (hostAccess a s₂) := by
  unfold Machine.hostAccess
  split
  · exact .fault _
  · split
    · exact h.hostWrite _ _
    · exact .next { h with }

theorem hostStep (hl : s₁.hostProg[s₁.hostPc]? = s₂.hostProg[s₂.hostPc]?) :
    SameOutcome (hostStep s₁) (hostStep s₂) := by
  unfold Machine.hostStep
  rw [← hl]
  split
  · exact .next h
  · have hpc : SameOperation { s₁ with hostPc := s₁.hostPc + 1 } { s₂ with hostPc := s₂.hostPc + 1 } := { h with }
    exact hpc.hostAccess _
  · exact .next { h with }

theorem engineStep : SameOutcome (engineStep s₁) (engineStep s₂) := by
  unfold Machine.engineStep
  rw [← h.busy, ← h.op]
  split
  · exact h.exec _
  · exact .next h

theorem shortTransfer : SameOperation (shortTransfer s₁) (shortTransfer s₂) := by
  unfold Machine.shortTransfer
  rw [← h.sraL]
  split
  · exact h.finish _ _
  · exact h.toPhase _

theorem endRead : SameOperation (endRead s₁) (endRead s₂) := by
  unfold Machine.endRead streamCount
  rw [← h.phase, ← h.n, ← h.rxq]
  split
  · exact h.shortTransfer
  · exact h

theorem busTarget (r : BusAnswer) : SameOperation (busTarget r s₁) (busTarget r s₂) := by
  unfold Machine.busTarget
  rw [← h.busAns, ← h.busReq]
  split
  · exact { h with busReq := rfl, busAns := rfl }
  · exact h

theorem foreignPop : SameOutcome (foreignPop s₁) (foreignPop s₂) := by
  unfold Machine.foreignPop streamCount
  rw [← h.rxq]
  split
  · exact .next h
  · exact .fault _

/-- One move of any agent, the Hosts at the same line if it is the Host's (R9). -/
theorem agentStep (e : Event) (hl : e = .host → s₁.hostProg[s₁.hostPc]? = s₂.hostProg[s₂.hostPc]?) :
    SameOutcome (agentStep e s₁) (agentStep e s₂) := by
  cases e with
  | host => exact h.hostStep (hl rfl)
  | engine => exact h.engineStep
  | append b => exact .next { h with rxq := congrArg (· ++ [b]) h.rxq }
  | endRead => exact .next h.endRead
  | busAnswer r => exact .next (h.busTarget r)
  | reset => exact .next (sameOperation_fbsReset h.rxq)
  | foreignPop => exact h.foreignPop

theorem step (hm : SameMove s₁ s₂) : SameOutcome (step s₁) (step s₂) := by
  unfold Machine.step
  rw [← hm.1]
  exact h.take.agentStep _ (by simpa using hm.2)

theorem engineRun (k : Nat) : SameOutcome (engineRun k s₁) (engineRun k s₂) := by
  induction k generalizing s₁ s₂ with
  | zero => exact .next h
  | succ k ih =>
    have hstep := h.engineStep
    unfold Machine.engineRun
    generalize Machine.engineStep s₁ = o₁ at hstep ⊢
    generalize Machine.engineStep s₂ = o₂ at hstep ⊢
    cases hstep with
    | next h' => exact ih h'
    | fault f => exact .fault f
    | refused r => exact .refused r

end SameOperation

theorem exec_decode_idle {s : State} (hb : s.busy = false) :
    exec .decode s = .next (accept .decode (startDecode s)) :=
  commandMove_idle (a := fun s => accept .decode (startDecode s)) hb

/-- Two coherent idle machines with the same binding, CONFIG.SRA and queue accept a DECODE into the same operation. -/
theorem exec_decode_sameOperation {s₁ s₂ : State} (h₁ : ControlInv s₁) (h₂ : ControlInv s₂) (hb₁ : s₁.busy = false)
    (hb₂ : s₂.busy = false) (ht : s₁.transport = s₂.transport) (hs : s₁.sra = s₂.sra) (hq : s₁.rxq = s₂.rxq) :
    ∃ a₁ a₂, exec .decode s₁ = .next a₁ ∧ exec .decode s₂ = .next a₂ ∧ SameOperation a₁ a₂ := by
  obtain ⟨hr₁, ha₁⟩ := h₁.idle_no_request hb₁
  obtain ⟨hr₂, ha₂⟩ := h₂.idle_no_request hb₂
  exact ⟨_, _, exec_decode_idle hb₁, exec_decode_idle hb₂,
    sameOperation_acceptDecode ht hs hq (hr₁.trans hr₂.symm) (ha₁.trans ha₂.symm)⟩

/-- Settles O36: acceptance starts the same operation, each move keeps it, and so does a run of the Engine. -/
theorem decodeForgetsEarlierCalls : Obligations.DecodeForgetsEarlierCalls := by
  refine ⟨fun s₁ s₂ => exec_decode_sameOperation, fun s₁ s₂ h hm => ⟨fun t₁ hs => ?_, fun f hs => ?_⟩, ?_⟩
  · exact (hs ▸ h.step hm).exists_next
  · exact (hs ▸ h.step hm).eq_fault
  · intro s₁ s₂ a₁ a₂ t₁ k h₁ h₂ hb₁ hb₂ ht hs hq he₁ he₂ hrun
    obtain ⟨a₁', a₂', he₁', he₂', ha⟩ := exec_decode_sameOperation h₁ h₂ hb₁ hb₂ ht hs hq
    obtain rfl : a₁ = a₁' := by simpa [he₁] using he₁'
    obtain rfl : a₂ = a₂' := by simpa [he₂] using he₂'
    obtain ⟨t₂, ht₂, h⟩ := (hrun ▸ ha.engineRun k).exists_next
    exact ⟨t₂, ht₂, h.result, h.busy, h.doneFlag, h.valid, h.rxq, fun hb => h.fields (by simp [hb])⟩

end Sys2Proof.Machine
end

section
/-! PROOFS. The STATUS word, bit by bit, and what it can show. -/

namespace Sys2Proof.Machine

section
variable (s : State)

/-- Every bit of the STATUS word (R24). -/
theorem statusWord_getLsbD (i : Nat) :
    (statusWord s).getLsbD i =
      if i < 4 then s.result.code.getLsbD i
      else if i = 4 then s.busy
      else if i = 5 then s.doneFlag
      else if i = 6 then s.valid
      else if i = 7 then false
      else s.transport.bits.getLsbD (i - 8) := by
  change BitVec.getLsbD (w := 6 + 2 + 1 + 1 + 1 + 1 + 4) (0#6 ++ s.transport.bits ++ 0#1 ++ BitVec.ofBool s.valid ++
    BitVec.ofBool s.doneFlag ++ BitVec.ofBool s.busy ++ s.result.code) i = _
  simp only [BitVec.getLsbD_append, BitVec.getLsbD_ofBool, BitVec.getLsbD_zero]
  have htop (k : Nat) : (if k < 2 then s.transport.bits.getLsbD k else false) = s.transport.bits.getLsbD k := by
    by_cases hk : k < 2
    · rw [if_pos hk]
    · rw [if_neg hk, BitVec.getLsbD_of_ge _ _ (by omega)]
  rw [htop]
  rcases i with _ | _ | _ | _ | _ | _ | _ | _ | i <;> simp

theorem statusWord_getLsbD_of_ge (k : Nat) :
    (statusWord s).getLsbD (8 + k) = s.transport.bits.getLsbD k := by
  rw [statusWord_getLsbD, if_neg (by omega), if_neg (by omega), if_neg (by omega), if_neg (by omega),
    if_neg (by omega), Nat.add_sub_cancel_left]

@[simp] theorem statusWord_result : (statusWord s).extractLsb' 0 4 = s.result.code := by
  ext i hi
  simp [statusWord_getLsbD, hi]

@[simp] theorem statusWord_transport : (statusWord s).extractLsb' 8 2 = s.transport.bits := by
  ext i hi
  rw [BitVec.getElem_extractLsb', statusWord_getLsbD_of_ge, BitVec.getLsbD_eq_getElem]

@[simp] theorem statusWord_reserved : (statusWord s).extractLsb' 10 6 = 0#6 := by
  ext i hi
  rw [BitVec.getElem_extractLsb', show 10 + i = 8 + (2 + i) by omega, statusWord_getLsbD_of_ge,
    BitVec.getLsbD_of_ge _ _ (by omega), BitVec.getElem_zero]

theorem statusWord_busy : (statusWord s).getLsbD 4 = s.busy := statusWord_getLsbD s 4

theorem statusWord_done : (statusWord s).getLsbD 5 = s.doneFlag := statusWord_getLsbD s 5

theorem statusWord_valid : (statusWord s).getLsbD 6 = s.valid := statusWord_getLsbD s 6

theorem statusWord_bit_seven : (statusWord s).getLsbD 7 = false := statusWord_getLsbD s 7

end

/-- 0xF is the code of NONE and of no other result (R75). -/
theorem ResultCode.code_eq_none_iff (r : ResultCode) : r.code = 0xF ↔ r = .none := by
  cases r <;> decide

/-- No result has one of the reserved codes 0x7..0xE (R76). -/
theorem ResultCode.code_not_reserved (r : ResultCode) : r.code = 0xF ∨ r.code.toNat ≤ 6 := by
  cases r <;> decide

/-- 0b11 is no binding's (R24). -/
theorem Transport.bits_ne_three (b : Transport) : b.bits ≠ 0b11 := by
  cases b <;> decide

/-- Settles O38, from the bits of the STATUS word. -/
theorem statusWordLayout : Obligations.StatusWordLayout :=
  ⟨rfl, rfl, rfl, fun s => ⟨statusWord_result s, statusWord_busy s, statusWord_done s, statusWord_valid s,
    statusWord_bit_seven s, statusWord_transport s, statusWord_reserved s⟩⟩

end Sys2Proof.Machine
end

section
/-! PROOFS. Completion, reset, and the states that runs from a reset FBS reach. -/

namespace Sys2Proof.Machine

/-- Settles O34: what completion does to FIELD0..14 and VALID depends on the operation and the code. -/
theorem finishCompletesTheOperation : Obligations.FinishCompletesTheOperation := by
  intro code f s
  split
  · split
    · simp [finish, decodeCommitted, attachCompleted, *]
    · simp [finish, decodeFailed, attachCompleted, noReading, *]
  · simp [finish, attachCompleted, *]

/-- Reset reads no state but the queue, the Host and the moves to come, which it leaves (R37, R231). -/
theorem step_reset {s : State} {rest : List Event} (h : s.agenda = .reset :: rest) :
    step s = .next { fbsReset s with agenda := rest } :=
  step_eq_of_agenda h

/-- Settles O47, by evaluation of the one state after reset. -/
theorem resetStateAsTabled : Obligations.ResetStateAsTabled :=
  ⟨by decide, by decide, by decide, fun _ => rfl, rfl, rfl, rfl, rfl, rfl⟩

/-- Settles O46: FBS's registers after reset are those of `State.reset`, and the other agents' state stays. -/
theorem resetEffect : Obligations.ResetEffect := by
  intro s
  obtain ⟨hstatus, hconfig, _, hbuf, hreq, hphase, hdisc, hn, hdone⟩ := resetStateAsTabled
  exact ⟨hstatus, hconfig, rfl, hbuf, hreq, hphase, hdisc, hn, hdone, rfl, ⟨rfl, rfl, rfl, rfl, rfl⟩,
    fun _ => step_reset⟩

theorem fbsReset_markerInv (s : State) : MarkerInv (fbsReset s) :=
  ⟨by simp, by simp⟩

theorem fbsReset_inv (s : State) : Inv (fbsReset s) :=
  ⟨fbsReset_controlInv s, fbsReset_bufferInv s, fbsReset_readingInv s, fbsReset_markerInv s⟩

/-- Settles O59; `State.reset` is what reset makes of itself. -/
theorem resetMeetsEveryInvariant : Obligations.ResetMeetsEveryInvariant :=
  ⟨fbsReset_inv State.reset, fbsReset_inv⟩

/-- What every step of a machine keeps, every run of it keeps. -/
theorem run_keeps {M : Host.Core} {P : M.State → Prop} (hstep : ∀ s t, P s → M.step s = .next t → P t) {k : Nat}
    {s t : M.State} (hs : P s) (hrun : M.run k s = .next t) : P t := by
  induction k generalizing s with
  | zero =>
    injection hrun with hst
    exact hst ▸ hs
  | succ k ih =>
    unfold Host.Core.run at hrun
    split at hrun
    · next u hu => exact ih (hstep s u hs hu) hrun
    · cases hrun
    · cases hrun

/-- What holds after reset in every environment and is kept by every step holds of every reachable state. -/
theorem Reachable.of_invariant {P : State → Prop} (hreset : ∀ s, P (fbsReset s))
    (hstep : ∀ s t, P s → step s = .next t → P t) {t : State} (ht : Reachable t) : P t := by
  obtain ⟨s, k, hrun⟩ := ht
  exact run_keeps (M := Sys2Proof.core) hstep (hreset s) hrun

theorem Reachable.controlInv {t : State} (ht : Reachable t) : ControlInv t :=
  ht.of_invariant fbsReset_controlInv stepKeepsControlInv

theorem Reachable.readingInv {t : State} (ht : Reachable t) : ReadingInv t :=
  ht.of_invariant fbsReset_readingInv stepKeepsReadingInv

/-- Settles O60: the control and the Reading invariant of a reachable state, read off the bits of STATUS. -/
theorem statusOfEveryReachableState : Obligations.StatusOfEveryReachableState := by
  intro t ht
  have hc := ht.controlInv
  rw [statusWord_busy, statusWord_done, statusWord_valid, statusWord_result, statusWord_transport]
  refine ⟨?_, ?_, t.result.code_not_reserved, t.transport.bits_ne_three, statusWord_bit_seven t, statusWord_reserved t,
    hc.busy_iff, ht.readingInv.checked⟩
  · rintro ⟨hb, hd⟩
    simp [hc.done_idle hd] at hb
  · rw [ResultCode.code_eq_none_iff]
    exact hc.result_none

end Sys2Proof.Machine
end

section
/-! PROOFS. The host register port: what a read gives and what a write does at each word address (R22, R55, R56). -/

namespace Sys2Proof.Machine

/-- CONFIG reads as its one bit, zero-extended (R25). -/
theorem configWord_eq (s : State) : configWord s = if s.sra = true then 0x0001 else 0x0000 := by
  cases hs : s.sra <;> simp [configWord, hs]

theorem hostRead_eq (a : RegAddr) (s : State) :
    hostRead a s =
      if a = 0x00 then 0x0000
      else if a = 0x01 then statusWord s
      else if a = 0x02 then (if s.sra = true then 0x0001 else 0x0000)
      else if h : 0x10 ≤ a.toNat ∧ a.toNat ≤ 0x1E then s.fields[a.toNat - 0x10]'(by omega)
      else 0x0000 := by
  unfold hostRead regAt
  by_cases hcmd : a = 0x00#5
  · simp [hcmd]
  · by_cases hstatus : a = 0x01#5
    · simp [hstatus]
    · by_cases hconfig : a = 0x02#5
      · simp [hconfig, configWord_eq]
      · by_cases hfield : 0x10 ≤ a.toNat ∧ a.toNat ≤ 0x1E <;> simp [hcmd, hstatus, hconfig, hfield]

theorem hostWrite_eq (a : RegAddr) (w : Word) (s : State) :
    hostWrite a w s =
      if a = 0x00 then commandWrite w s
      else if a = 0x02 then .next { s with sra := w.getLsbD 0 }
      else .next s := by
  by_cases hcmd : a = 0x00
  · subst hcmd
    rfl
  · by_cases hconfig : a = 0x02
    · subst hconfig
      rfl
    · rw [if_neg hcmd, if_neg hconfig]
      unfold hostWrite
      split
      · exact absurd (regAt_cmd ‹_›) hcmd
      · exact absurd (regAt_config ‹_›) hconfig
      all_goals rfl

/-- No register reads the Host's last value (R56). -/
theorem hostRead_hostLast (a : RegAddr) (v : Word) (s : State) : hostRead a { s with hostLast := v } = hostRead a s := by
  unfold hostRead
  split <;> rfl

theorem hostAccess_read {h : HostAccess} {s : State} (hw : h.width = 16) (hr : h.write = false) :
    hostAccess h s = .next { s with hostLast := hostRead h.addr s } := by
  simp [hostAccess, hw, hr]

theorem hostWrite_config (w : Word) (s : State) :
    hostWrite configAddr w s = .next { s with sra := w.getLsbD 0 } :=
  hostWrite_eq configAddr w s

/-- Settles O37, along the register map. -/
theorem hostAccessSemantics : Obligations.HostAccessSemantics :=
  ⟨fun s a => hostRead_eq a s, fun s a w => hostWrite_eq a w s⟩

/-- Settles O40: a read changes what no register reads, and a CONFIG write sets one field to a value of its own. -/
theorem hostReadsHaveNoSideEffect : Obligations.HostReadsHaveNoSideEffect := by
  refine ⟨fun s h hw hr => ⟨hostAccess_read hw hr, fun a => hostRead_hostLast a _ s⟩, fun s t w hs => ?_⟩
  rw [hostWrite_config] at hs ⊢
  injection hs with hs
  subst hs
  rfl

end Sys2Proof.Machine
end

section
/-! PROOFS. The step that runs a command: the Host's write of its word to CMD, and the Engine's move (R55, R80, R30). -/

namespace Sys2Proof.Machine

/-- An idle FBS takes a command's word as that command's move (R80). -/
theorem commandWrite_command {w : Word} {i : Instr} {s : State} (hw : decodeWord w = .ok i) (hb : s.busy = false) :
    commandWrite w s = exec i s := by
  simp [commandWrite, hb, hw]

theorem hostStep_access {h : HostAccess} {s : State} (hl : s.hostProg[s.hostPc]? = some (.access h)) :
    hostStep s = hostAccess h { s with hostPc := s.hostPc + 1 } := by
  simp [hostStep, hl]

/-- The line `wr CMD, w` is a write to CMD with the Host's line taken (R17, R55). -/
theorem hostStep_writeCmd {w : Word} {s : State} (hl : s.hostProg[s.hostPc]? = some (hostWr cmdAddr w)) :
    hostStep s = commandWrite w { s with hostPc := s.hostPc + 1 } :=
  hostStep_access hl

theorem engineStep_busy {s : State} (hb : s.busy = true) : engineStep s = exec s.op s :=
  if_pos hb

/-- Settles O1: the move at the agenda's head is the Host's accepted write, or the Engine's step of what is in flight. -/
theorem stepRunsTheDecodedCommand : Obligations.StepRunsTheDecodedCommand := by
  refine ⟨fun s w i rest ha hl hw hb => ?_, fun s rest ha hb => ?_⟩
  · calc step s
        = hostStep { s with agenda := rest } := step_eq_of_agenda ha
      _ = commandWrite w { s with agenda := rest, hostPc := s.hostPc + 1 } := hostStep_writeCmd hl
      _ = exec i { s with agenda := rest, hostPc := s.hostPc + 1 } := commandWrite_command hw hb
  · calc step s
        = engineStep { s with agenda := rest } := step_eq_of_agenda ha
      _ = exec s.op { s with agenda := rest } := engineStep_busy hb

end Sys2Proof.Machine
end

section
/-! PROOFS. The results of a command: when FIELD0..14 change, and what an idle FBS keeps (R58, R63). -/

namespace Sys2Proof.Machine

/-- `t` is what `s` becomes in the step that completes its DECODE: with OK and the Reading of the buffer checked in
CHECK, or with an error and no Reading (R35, R58). -/
def CompletesDecode (s t : State) : Prop :=
  t.busy = false ∧ t.doneFlag = true ∧
    ((t.result = .ok ∧ t.valid = true ∧ s.phase = .check ∧ ReadingOf s.buf t.fields) ∨
     (t.result ≠ .ok ∧ t.valid = false ∧ t.fields = Vector.replicate 15 0x0000#16))

/-- The unpacker gives the big-endian pairs of the buffer (R166). -/
theorem readingOf_unpack (m : Memory) : ReadingOf m (unpack m) := by
  intro k
  rw [Fin.getElem_fin, unpack_getElem, fieldOf_toNat, pairValue]

theorem finish_error_completesDecode {code : ResultCode} {s : State} (hc : code ≠ .ok) (f : Reading)
    (ho : s.op = .decode) : CompletesDecode s (finish code f s) :=
  ⟨rfl, rfl, .inr ⟨hc, by simp [ho, hc], fieldsAtFinish_error ho hc⟩⟩

/-- CHECK completes the DECODE, with the buffer's Reading if its verdict on the buffer is OK (R160, R176). -/
theorem decodeCheck_completesDecode {s : State} (hp : s.phase = .check) (ho : s.op = .decode) :
    CompletesDecode s (decodeCheck s) := by
  rw [decodeCheck_eq]
  by_cases hv : verdict s.buf = .ok
  · rw [hv]
    refine ⟨rfl, rfl, .inl ⟨rfl, by simp [ho], hp, ?_⟩⟩
    rw [finish_fields, fieldsAtFinish_ok ho]
    exact readingOf_unpack s.buf
  · exact finish_error_completesDecode hv _ ho

/-- An attach leaves FIELD0..14, in the step that completes it too (R35). -/
theorem AttachCase.fields_eq {s t : State} (h : AttachCase s t) : t.fields = s.fields := by
  cases h with
  | bindBus ho _ _ ht | notFound ho _ _ ht | bindStream ho _ ht =>
    simp [ht, ho]
  | probe _ _ ht | wait ht => exact ht ▸ rfl

/-- A DECODE leaves FIELD0..14 until the step that completes it. -/
theorem DecodeCase.fields_eq_or {s t : State} (h : DecodeCase s t) (ho : s.op = .decode) :
    t.fields = s.fields ∨ CompletesDecode s t := by
  cases h with
  | check hp ht => exact .inr (ht ▸ decodeCheck_completesDecode hp ho)
  | unbound _ _ ht | noData _ _ _ ht | busFail _ _ ht | exhaustedFail _ _ _ ht | bound _ _ ht =>
    exact .inr (ht ▸ finish_error_completesDecode (by simp) _ ho)
  | store _ _ _ _ _ ht =>
    rw [ht, fillNext_eq]
    exact .inl rfl
  | busRequest _ _ ht | scanStart _ _ _ ht | busData _ _ _ ht | exhaustedFill _ _ _ ht | marker _ _ _ ht
  | discard _ _ _ _ _ _ ht | wait ht => exact .inl (ht ▸ rfl)

theorem shortTransfer_fields_eq_or {s : State} (ho : s.op = .decode) :
    (shortTransfer s).fields = s.fields ∨ CompletesDecode s (shortTransfer s) := by
  rcases shortTransfer_cases s with ⟨_, hs⟩ | ⟨_, hs⟩ <;> rw [hs]
  · exact .inr (finish_error_completesDecode (by simp) _ ho)
  · exact .inl rfl

/-- In FILL a DECODE is in flight (R30, R121). -/
theorem ControlInv.decoding_of_fill {s : State} (h : ControlInv s) (hp : s.phase = .fill) : Decoding s := by
  have hop := h.op
  rw [hp] at hop
  exact ⟨h.busy_iff.mpr (by simp [hp]), hop.1⟩

/-- FIELD0..14 after one move: as they were, reset, or those of the DECODE that completes. -/
theorem MoveCase.fields_eq_or {e : Event} {s t : State} (h : MoveCase e s t) (hc : ControlInv s) :
    t.fields = s.fields ∨ e = .reset ∨ (Decoding s ∧ CompletesDecode s t) := by
  cases h with
  | decode _ hb ho he => exact ((decodeEngine_cases he).fields_eq_or ho).imp_right fun hd => .inr ⟨⟨hb, ho⟩, hd⟩
  | short _ hp _ _ ht =>
    have hd : Decoding s := hc.decoding_of_fill hp
    exact ht ▸ (shortTransfer_fields_eq_or hd.2).imp_right fun hf => .inr ⟨hd, hf⟩
  | attachBus _ _ ho he => exact .inl (attachBusEngine_cases ho he).fields_eq
  | attachStream _ _ ho he => exact .inl (attachStreamEngine_cases ho he).fields_eq
  | reset he _ => exact .inr (.inl he)
  | accept _ _ _ _ _ _ ht | acceptDecode _ _ _ _ ht | config _ _ _ ht | hostOnly _ _ _ ht | append _ _ ht
  | answer _ _ _ _ ht | nothing _ ht => exact .inl (ht ▸ rfl)

/-- Settles O48, from FIELD0..14 after each move; a short transfer is a DECODE's by `ControlInv`. -/
theorem fieldsChangeOnlyAtCompletion : Obligations.FieldsChangeOnlyAtCompletion := by
  intro s t hc hs hne
  simpa [hne, CompletesDecode, Decoding] using (step_next hs).fields_eq_or hc.take

/-- What an idle FBS keeps of its results through a move that is neither reset nor an accepted command: the Engine has
no step, and no fill is there to end short. -/
theorem MoveCase.idle_results_eq {e : Event} {s t : State} (h : MoveCase e s t) (hc : ControlInv s)
    (hidle : s.busy = false) (hr : e ≠ .reset) (hbt : t.busy = false) :
    t.result = s.result ∧ t.doneFlag = s.doneFlag ∧ t.valid = s.valid ∧ t.transport = s.transport ∧
      t.fields = s.fields := by
  have not_busy : s.busy ≠ true := by simp [hidle]
  cases h with
  | accept _ _ _ _ _ _ ht | acceptDecode _ _ _ _ ht => simp [ht] at hbt
  | attachBus _ hb _ _ | attachStream _ hb _ _ | decode _ hb _ _ => exact absurd hb not_busy
  | short _ hp _ _ _ => exact absurd (hc.decoding_of_fill hp).1 not_busy
  | reset he _ => exact absurd he hr
  | config _ _ _ ht | hostOnly _ _ _ ht | append _ _ ht | answer _ _ _ _ ht | nothing _ ht =>
    exact ht ▸ ⟨rfl, rfl, rfl, rfl, rfl⟩

/-- Settles O54: with DONE = 1 FBS is idle, and an idle FBS keeps its results. -/
theorem resultsStayUntilNextCommand : Obligations.ResultsStayUntilNextCommand := by
  intro s t hc hdone hs hr hbt
  have hidle : s.busy = false := hc.done_idle hdone
  simpa [hdone] using (step_next hs).idle_results_eq hc.take (by simpa using hidle) hr hbt

end Sys2Proof.Machine
end

section
/-! PROOFS. The 22-bit listing of a host access, read back field by field (R83). -/

namespace Sys2Proof.Machine

/-- The port has 16-bit accesses, and a read carries no value (R54, R83). -/
theorem HostAccess.wf_iff (h : HostAccess) : h.wf = true ↔ h.width = 16 ∧ (h.write = false → h.value = 0) := by
  cases hw : h.write <;> simp [HostAccess.wf, hw]

/-- The access whose direction, address and value stand in the bits of a 22-bit word, listing or not (R83). -/
def listedAccess (w : BitVec 22) : HostAccess where
  width := 16
  write := w.getLsbD 21
  addr := w.extractLsb' 16 5
  value := w.extractLsb' 0 16

/-- A word decodes to the access its bits list, provided that access is well formed (log entry 16). -/
theorem decodeAccess_eq_some_iff {w : BitVec 22} {h : HostAccess} :
    decodeAccess w = some h ↔ listedAccess w = h ∧ h.wf = true := by
  change (if (listedAccess w).wf then some (listedAccess w) else none) = some h ↔ _
  rw [Option.ite_none_right_eq_some, Option.some.injEq, and_comm]
  exact and_congr_right fun he => by rw [he]

section
variable (h : HostAccess)

/-- The value of a well-formed access is listed as it is: a read's is 0 anyway. -/
theorem encodeAccess_eq (hwf : h.wf = true) : encodeAccess h = BitVec.ofBool h.write ++ h.addr ++ h.value := by
  cases hd : h.write with
  | true => simp [encodeAccess, hd]
  | false =>
    have hzero : h.value = 0 := (h.wf_iff.mp hwf).2 hd
    simp [encodeAccess, hd, hzero]

theorem encodeAccess_direction : (encodeAccess h).getLsbD 21 = h.write := by
  change BitVec.getLsbD (w := 1 + 5 + 16) (BitVec.ofBool h.write ++ h.addr ++ _) 21 = h.write
  rw [BitVec.getLsbD_append, BitVec.getLsbD_append, BitVec.getLsbD_ofBool]
  rfl

theorem encodeAccess_addr : (encodeAccess h).extractLsb' 16 5 = h.addr := by
  change BitVec.extractLsb' (n := 1 + 5 + 16) 16 5 (BitVec.ofBool h.write ++ h.addr ++ _) = h.addr
  rw [BitVec.extractLsb'_append_eq_of_le (Nat.le_refl 16)]
  exact BitVec.extractLsb'_append_eq_right

theorem encodeAccess_value (hwf : h.wf = true) : (encodeAccess h).extractLsb' 0 16 = h.value := by
  rw [encodeAccess_eq h hwf]
  exact BitVec.extractLsb'_append_eq_right

theorem listedAccess_encodeAccess (hwf : h.wf = true) : listedAccess (encodeAccess h) = h := by
  have hwidth : h.width = 16 := (h.wf_iff.mp hwf).1
  rw [listedAccess, encodeAccess_direction, encodeAccess_addr, encodeAccess_value h hwf, ← hwidth]

end

/-- A 22-bit word is its bit 21, its bits 20:16 and its bits 15:0 side by side. -/
theorem listing_fields_append (w : BitVec 22) :
    BitVec.ofBool (w.getLsbD 21) ++ w.extractLsb' 16 5 ++ w.extractLsb' 0 16 = w := by
  have hbit : BitVec.ofBool (w.getLsbD 21) = w.extractLsb' 21 1 := by
    ext i hi
    simp [show i = 0 by omega]
  rw [hbit, BitVec.extractLsb'_append_extractLsb'_eq_extractLsb' (by rfl)]
  exact BitVec.extractLsb'_append_extractLsb' (w := 6)

theorem encodeAccess_listedAccess {w : BitVec 22} (hwf : (listedAccess w).wf = true) :
    encodeAccess (listedAccess w) = w := by
  rw [encodeAccess_eq _ hwf]
  exact listing_fields_append w

/-- Settles O6: both ways through the access that a word's bits list. -/
theorem accessListingRoundTrip : Obligations.AccessListingRoundTrip := by
  refine ⟨fun h hwf => ⟨?_, encodeAccess_direction h, encodeAccess_addr h, encodeAccess_value h hwf⟩, fun w h hd => ?_⟩
  · exact decodeAccess_eq_some_iff.mpr ⟨listedAccess_encodeAccess h hwf, hwf⟩
  · obtain ⟨rfl, hwf⟩ := decodeAccess_eq_some_iff.mp hd
    exact ⟨hwf, encodeAccess_listedAccess hwf⟩

end Sys2Proof.Machine
end

section
/-! PROOFS. Command words: a word is a command exactly when all its 16 bits are the command's (R70, R71, R73, R82). -/

namespace Sys2Proof

/-- RSV and OP fix a word (R70). -/
theorem Word.eq_encode_iff {w : Word} {i : Instr} :
    w = encode i ↔ w.extractLsb' 8 8 = 0x00#8 ∧ w.extractLsb' 0 8 = i.opcode := by
  constructor
  · rintro rfl
    exact ⟨BitVec.extractLsb'_append_eq_left, BitVec.extractLsb'_append_eq_right⟩
  · rintro ⟨hrsv, hop⟩
    rw [encode, ← hrsv, ← hop]
    exact (BitVec.extractLsb'_append_extractLsb' (w := 8) (len := 8)).symm

/-- The encoding laws of Laws/PerInstr.lean, for every command. -/
theorem encoding_statement (i : Instr) : Laws.Encoding.Statement i := by
  cases i with
  | attachBus => exact Laws.Encoding.attachBus
  | attachStream => exact Laws.Encoding.attachStream
  | decode => exact Laws.Encoding.decode

theorem decodeWord_encode (i : Instr) : decodeWord (encode i) = .ok i := by
  obtain ⟨_, _, hdecode, _, _⟩ := encoding_statement i
  exact hdecode

theorem assemble_mnemonic (i : Instr) : assemble i.mnemonic = some i := by
  obtain ⟨_, _, _, _, hassemble⟩ := encoding_statement i
  exact hassemble

/-- A word decodes to a command exactly when it is that command's word, RSV and all (R71). -/
theorem decodeWord_eq_ok_iff {w : Word} {i : Instr} : decodeWord w = .ok i ↔ w = encode i := by
  refine ⟨fun h => Word.eq_encode_iff.mpr ?_, fun h => h ▸ decodeWord_encode i⟩
  unfold decodeWord at h
  split_ifs at h with hrsv hbus hstream hdecode <;> cases h
  · exact ⟨not_not.mp hrsv, hbus⟩
  · exact ⟨not_not.mp hrsv, hstream⟩
  · exact ⟨not_not.mp hrsv, hdecode⟩

/-- The opcode table's numbering of a 16-bit word's bits is the word's own (log entry 14). -/
theorem tableWord_toNat (w : Word) : tableWord 16 w.toNat = w := by
  rw [tableWord, Nat.mod_eq_of_lt w.isLt, BitVec.ofNat_toNat, BitVec.setWidth_eq]

/-- Settles O3: each word is one evaluation of the decoder. -/
theorem specWordsDecode : Obligations.SpecWordsDecode := by
  unfold Obligations.SpecWordsDecode
  decide

/-- Settles O4, for each command by `decodeWord_eq_ok_iff`. -/
theorem decodeComparesAllSixteenBits : Obligations.DecodeComparesAllSixteenBits :=
  fun _ => ⟨decodeWord_eq_ok_iff, decodeWord_eq_ok_iff, decodeWord_eq_ok_iff⟩

namespace Machine

/-- A bare mnemonic issues the word of the command it names (R82). -/
theorem assemble_mnemonic_issue (i : Instr) :
    (assemble i.mnemonic).map issue = some (hostWr cmdAddr (encode i)) := by
  rw [assemble_mnemonic]
  rfl

/-- Settles O5, for each command by `assemble_mnemonic_issue`. -/
theorem mnemonicsAssemble : Obligations.MnemonicsAssemble :=
  ⟨assemble_mnemonic_issue .attachBus, assemble_mnemonic_issue .attachStream, assemble_mnemonic_issue .decode⟩

end Machine

end Sys2Proof
end

section
/-! PROOFS. The host's write to CMD: acceptance, the reserved words and the busy fault (R73, R80, R81). -/

namespace Sys2Proof.Machine

/-- Any CMD write faults while BUSY = 1 (R81). -/
theorem commandWrite_busy {s : State} (hb : s.busy = true) (w : Word) : commandWrite w s = .fault .cmdWhileBusy :=
  if_pos hb

/-- An idle FBS ignores a word that is no command's (R73). -/
theorem commandWrite_reserved {w : Word} {s : State} (hb : s.busy = false) (hw : ∀ i, w ≠ encode i) :
    commandWrite w s = .next s := by
  cases hd : decodeWord w with
  | ok i => exact absurd (decodeWord_eq_ok_iff.mp hd) (hw i)
  | error e => simp [commandWrite, hb, hd]

theorem commandWrite_encode {i : Instr} {s : State} (hb : s.busy = false) : commandWrite (encode i) s = exec i s :=
  commandWrite_command (decodeWord_encode i) hb

theorem exec_attachBus_idle {s : State} (hb : s.busy = false) : exec .attachBus s = .next (accept .attachBus s) :=
  commandMove_idle hb

theorem exec_attachStream_idle {s : State} (hb : s.busy = false) :
    exec .attachStream s = .next (accept .attachStream s) :=
  commandMove_idle hb

/-- Settles O7: a busy FBS faults, an idle one accepts the three commands' words and ignores every other. -/
theorem commandWriteEffect : Obligations.CommandWriteEffect := by
  intro s w
  split_ifs with hbusy hbus hstream hdecode
  · exact commandWrite_busy hbusy w
  all_goals have hidle : s.busy = false := Bool.eq_false_of_not_eq_true hbusy
  · exact hbus ▸ (commandWrite_encode hidle).trans (exec_attachBus_idle hidle)
  · exact hstream ▸ (commandWrite_encode hidle).trans (exec_attachStream_idle hidle)
  · exact hdecode ▸ (commandWrite_encode hidle).trans (exec_decode_idle hidle)
  · refine commandWrite_reserved hidle fun i => ?_
    cases i with
    | attachBus => exact hbus
    | attachStream => exact hstream
    | decode => exact hdecode

theorem hostWrite_cmd (w : Word) (s : State) : hostWrite cmdAddr w s = commandWrite w s :=
  hostWrite_eq cmdAddr w s

/-- Settles O8: a reserved RSV or OP is that of no command's word. -/
theorem reservedWordsAreIgnored : Obligations.ReservedWordsAreIgnored := by
  intro s w hb hreserved
  rw [hostWrite_cmd]
  refine commandWrite_reserved hb fun i hw => ?_
  obtain ⟨hrsv, hop⟩ := Word.eq_encode_iff.mp hw
  rcases hreserved with hne | ⟨hbus, hstream, hdecode⟩
  · exact hne hrsv
  · cases i with
    | attachBus => exact hbus hop
    | attachStream => exact hstream hop
    | decode => exact hdecode hop

/-- Settles O9, at CMD's address. -/
theorem commandWriteWhileBusyFaults : Obligations.CommandWriteWhileBusyFaults :=
  fun s w hb => (hostWrite_cmd w s).trans (commandWrite_busy hb w)

/-- Settles O10: the accepted state is `accept` of `startDecode`. -/
theorem acceptedDecodeStartsClean : Obligations.AcceptedDecodeStartsClean := by
  intro s hb
  refine ⟨_, exec_decode_idle hb, fun a => ?_, ?_⟩
  · exact Memory.read_cleared a
  · exact ⟨rfl, rfl, rfl, rfl, rfl, rfl, rfl, rfl, rfl, rfl⟩

/-- Settles O2: the placed line is the Host's next move, and it writes the command's word to CMD. -/
theorem placedCommandRunsNext : Obligations.PlacedCommandRunsNext := by
  intro s i hb
  rw [State.withFetchWord, tableWord_toNat]
  exact stepRunsTheDecodedCommand.1 _ (encode i) i s.agenda rfl rfl (decodeWord_encode i) hb

end Sys2Proof.Machine
end

section
/-! PROOFS. The 4-bit codes of the results, and back (R75, R76). -/

namespace Sys2Proof.Machine

theorem resultOfCode_code (r : ResultCode) : resultOfCode r.code = some r := by
  cases r <;> decide

/-- A code that stands for a result is that result's, for each of the 16 codes; 0x7..0xE stand for none (R76). -/
theorem code_of_mem_resultOfCode : ∀ c : BitVec 4, ∀ r ∈ resultOfCode c, r.code = c := by
  decide

/-- Settles O39, from the table and its inverse. -/
theorem resultCodesAsTabled : Obligations.ResultCodesAsTabled :=
  ⟨rfl, rfl, rfl, rfl, rfl, rfl, rfl, rfl, fun c r => ⟨code_of_mem_resultOfCode c r, fun h => h ▸ resultOfCode_code r⟩⟩

end Sys2Proof.Machine
end

section
/-! PROOFS. One turn of `wait_done`: a read of STATUS, and the branch on its bit 5 (R84). -/

namespace Sys2Proof.Machine

/-- The branch of `wait_done` is taken exactly while bit 5 of the value read is 0 (R84). -/
theorem condHolds_bit_five_clear (v : Word) :
    condHolds { mask := 0x0020, value := 0x0000, equal := true } v = !v.getLsbD 5 := by
  have hmask : v &&& 0x0020#16 = if v.getLsbD 5 = true then 0x0020#16 else 0x0000#16 := BitVec.and_twoPow v 5
  change ((v &&& 0x0020#16 == 0x0000#16) == true) = !v.getLsbD 5
  rw [hmask]
  cases v.getLsbD 5 <;> rfl

section
variable {s : State} {rest : List Event}

/-- The Host's line `rd STATUS` gives it the STATUS word and takes the line and the move, nothing else (R17, R56). -/
theorem step_hostRd_status (ha : s.agenda = .host :: rest) (hl : s.hostProg[s.hostPc]? = some (hostRd statusAddr)) :
    step s = .next { s with agenda := rest, hostPc := s.hostPc + 1, hostLast := statusWord s } := by
  calc step s
      = hostStep { s with agenda := rest } := step_eq_of_agenda ha
    _ = hostAccess _ { s with agenda := rest, hostPc := s.hostPc + 1 } := hostStep_access hl
    _ = .next { s with agenda := rest, hostPc := s.hostPc + 1, hostLast := statusWord s } := hostAccess_read rfl rfl

/-- The Host's branch changes the line it takes next, and nothing else (R17, R85). -/
theorem step_ifGoto {c : HostCond} {line : Nat} (ha : s.agenda = .host :: rest)
    (hl : s.hostProg[s.hostPc]? = some (.ifGoto c line)) :
    step s = .next { s with agenda := rest, hostPc := if condHolds c s.hostLast then line else s.hostPc + 1 } := by
  rw [step_eq_of_agenda ha]
  simp [agentStep, hostStep, hl]

end

/-- Settles O41: the Host reads STATUS, then branches on its bit 5, DONE. -/
theorem waitDoneTurn : Obligations.WaitDoneTurn := by
  intro s rest ha hread hbranch
  refine ⟨_, step_hostRd_status ha hread, ?_⟩
  rw [step_ifGoto rfl hbranch, condHolds_bit_five_clear, statusWord_done]
  cases s.doneFlag <;> rfl

end Sys2Proof.Machine
end

section
/-! PROOFS. No move is refused, and the Engine's move always answers while FILL has room (R73, R200, R245). -/

namespace Sys2Proof.Machine

variable {s : State}

theorem commandWrite_not_refused (w : Word) (r : Refusal) : commandWrite w s ≠ .refused r := by
  unfold commandWrite
  split
  · simp
  · split
    · exact exec_not_refused _ s r
    · simp

theorem hostWrite_not_refused (a : RegAddr) (w : Word) (r : Refusal) : hostWrite a w s ≠ .refused r := by
  rw [hostWrite_eq]
  split
  · exact commandWrite_not_refused w r
  · split <;> simp

theorem hostAccess_not_refused (h : HostAccess) (r : Refusal) : hostAccess h s ≠ .refused r := by
  unfold hostAccess
  split
  · simp
  · split
    · exact hostWrite_not_refused _ _ r
    · simp

theorem hostStep_not_refused (r : Refusal) : hostStep s ≠ .refused r := by
  unfold hostStep
  split
  · simp
  · exact hostAccess_not_refused _ r
  · simp

theorem engineStep_not_refused (r : Refusal) : engineStep s ≠ .refused r := by
  unfold engineStep
  split
  · exact exec_not_refused _ s r
  · simp

theorem foreignPop_not_refused (r : Refusal) : foreignPop s ≠ .refused r := by
  unfold foreignPop
  split <;> simp

theorem agentStep_not_refused (e : Event) (r : Refusal) : agentStep e s ≠ .refused r := by
  cases e with
  | host => exact hostStep_not_refused r
  | engine => exact engineStep_not_refused r
  | foreignPop => exact foreignPop_not_refused r
  | append | endRead | busAnswer | reset => simp [agentStep]

theorem attachBusEngine_answers : ∃ t, attachBusEngine s = .next t := by
  cases hp : s.phase <;> simp [attachBusEngine, hp]

theorem attachStreamEngine_answers : ∃ t, attachStreamEngine s = .next t := by
  cases hp : s.phase <;> simp [attachStreamEngine, hp]

/-- FILL waits on an empty queue, and else has room for the head byte. -/
theorem decodeFill_answers (hn : s.n < 32) : ∃ t, decodeFill s = .next t := by
  unfold decodeFill
  split
  · exact ⟨_, rfl⟩
  · exact ⟨_, if_pos hn⟩

theorem decodeEngine_answers (hn : s.phase = .fill → s.n < 32) : ∃ t, decodeEngine s = .next t := by
  cases hp : s.phase with
  | fill => simpa [decodeEngine, hp] using decodeFill_answers (hn hp)
  | dispatch | busWait | scan | check | idle | probeWait => simp [decodeEngine, hp]

theorem exec_attachBus_running (hb : s.busy = true) (ho : s.op = .attachBus) :
    exec .attachBus s = attachBusEngine s :=
  commandMove_running hb ho

theorem exec_attachStream_running (hb : s.busy = true) (ho : s.op = .attachStream) :
    exec .attachStream s = attachStreamEngine s :=
  commandMove_running hb ho

theorem exec_decode_running (hb : s.busy = true) (ho : s.op = .decode) : exec .decode s = decodeEngine s :=
  commandMove_running (a := fun s => accept .decode (startDecode s)) hb ho

theorem engineStep_answers (hn : s.phase = .fill → s.n < 32) : ∃ t, engineStep s = .next t := by
  cases hb : s.busy with
  | false => exact ⟨s, by simp [engineStep, hb]⟩
  | true =>
    rw [engineStep_busy hb]
    cases ho : s.op with
    | attachBus => exact attachBusEngine_answers.imp fun _ he => (exec_attachBus_running hb ho).trans he
    | attachStream => exact attachStreamEngine_answers.imp fun _ he => (exec_attachStream_running hb ho).trans he
    | decode => exact (decodeEngine_answers hn).imp fun _ he => (exec_decode_running hb ho).trans he

/-- Settles O44: by the kind of move; `BufferInv` gives FILL room for the byte. -/
theorem nothingIsRefused : Obligations.NothingIsRefused :=
  ⟨fun _ r => agentStep_not_refused _ r, fun _ h => engineStep_answers h.fill_room⟩

end Sys2Proof.Machine
end

section
/-! PROOFS. The BusTarget: which answers a request takes, and that it takes at most one (R29, R102, R124, R233). -/

namespace Sys2Proof.Machine

theorem answersReq_none (r : BusAnswer) : answersReq r .none = false := by
  cases r <;> rfl

/-- A probe takes Ack and Nack (R102). -/
theorem answersReq_probe_iff (r : BusAnswer) (a : BusAddr) : answersReq r (.probe a) = true ↔ r = .ack ∨ r = .nack := by
  cases r <;> simp [answersReq]

/-- A read takes every answer that is not a probe's: 32 bytes or Fail (R124). -/
theorem answersReq_read_iff (r : BusAnswer) (a : BusAddr) (len : Nat) :
    answersReq r (.read a len) = true ↔ ¬ (r = .ack ∨ r = .nack) := by
  cases r <;> simp [answersReq]

section
variable {r : BusAnswer} {s : State}

theorem busTarget_unanswered (ha : s.busAns = none) :
    busTarget r s = if answersReq r s.busReq = true then { s with busAns := some r } else s := by
  simp [busTarget, ha]

theorem busTarget_answered (ha : s.busAns ≠ none) : busTarget r s = s :=
  if_neg fun h => ha h.1

theorem busTarget_no_request (hq : s.busReq = .none) : busTarget r s = s :=
  if_neg fun h => by simp [hq, answersReq_none] at h

theorem busTarget_probe {a : BusAddr} (hq : s.busReq = .probe a) (ha : s.busAns = none) :
    busTarget r s = if r = .ack ∨ r = .nack then { s with busAns := some r } else s := by
  simp only [busTarget_unanswered ha, hq, answersReq_probe_iff]

theorem busTarget_read {a : BusAddr} {len : Nat} (hq : s.busReq = .read a len) (ha : s.busAns = none) :
    busTarget r s = if r = .ack ∨ r = .nack then s else { s with busAns := some r } := by
  simp only [busTarget_unanswered ha, hq, answersReq_read_iff, ite_not]

end

/-- Settles O42, by the request outstanding. -/
theorem busTargetAnswersOnce : Obligations.BusTargetAnswersOnce :=
  fun _ _ => ⟨fun h => h.elim busTarget_no_request busTarget_answered, fun _ => busTarget_probe,
    fun _ _ => busTarget_read⟩

end Sys2Proof.Machine
end

section
/-! PROOFS. The two attaches: their Engine steps, what no move of theirs changes, and the run of ATTACH_BUS to its
completion (R100-R106). -/

namespace Sys2Proof.Machine

section
variable {s : State}

/-- The completion of an attach leaves FIELD0..14 and VALID (R35). -/
theorem finish_eq_attachCompleted (ho : s.op ≠ .decode) (code : ResultCode) (f : Reading) :
    finish code f s = attachCompleted code s := by
  simp [finish, attachCompleted, ho]

theorem exec_attachBus_dispatch (h : Running .attachBus .dispatch s) :
    exec .attachBus s = .next (attachBusDispatch s) := by
  obtain ⟨hb, ho, hp⟩ := h
  rw [exec_attachBus_running hb ho]
  simp [attachBusEngine, hp]

theorem exec_attachBus_ack (h : Running .attachBus .probeWait s) (ha : s.busAns = some .ack) :
    exec .attachBus s = .next (attachCompleted .ok (bind .bus s)) := by
  obtain ⟨hb, ho, hp⟩ := h
  rw [exec_attachBus_running hb ho, ← finish_eq_attachCompleted (by simp [ho]) .ok noReading]
  simp [attachBusEngine, hp, attachBusProbed, ha, finishWith]

theorem exec_attachBus_nack (h : Running .attachBus .probeWait s) (ha : s.busAns = some .nack) :
    exec .attachBus s = .next (attachCompleted .deviceNotFound s) := by
  obtain ⟨hb, ho, hp⟩ := h
  rw [exec_attachBus_running hb ho, ← finish_eq_attachCompleted (by simp [ho]) .deviceNotFound noReading]
  simp [attachBusEngine, hp, attachBusProbed, ha, finishWith]

theorem exec_attachStream_dispatch (h : Running .attachStream .dispatch s) :
    exec .attachStream s = .next (attachCompleted .ok (bind .stream s)) := by
  obtain ⟨hb, ho, hp⟩ := h
  rw [exec_attachStream_running hb ho, ← finish_eq_attachCompleted (by simp [ho]) .ok noReading]
  simp [attachStreamEngine, hp, attachStreamDispatch, finishWith]

end

/-- Settles O11: the probe and the two answers, with the updates written out. -/
theorem attachBusEngineSteps : Obligations.AttachBusEngineSteps :=
  ⟨fun _ => exec_attachBus_dispatch, fun _ => exec_attachBus_ack, fun _ => exec_attachBus_nack⟩

/-- Settles O12, with the binding written out. -/
theorem attachStreamEngineStep : Obligations.AttachStreamEngineStep :=
  fun _ => exec_attachStream_dispatch

/-- What belongs to DECODE and to the agents around FBS, none of which an attach changes (R100, R103, R106). -/
structure AttachUntouched (s t : State) : Prop where
  fields : t.fields = s.fields
  valid : t.valid = s.valid
  sra : t.sra = s.sra
  sraL : t.sraL = s.sraL
  disc : t.disc = s.disc
  n : t.n = s.n
  rxq : t.rxq = s.rxq
  buf : t.buf = s.buf
  host : SameHost s t

theorem accept_untouched (i : Instr) (s : State) : AttachUntouched s (accept i s) := by
  constructor <;> simp [SameHost]

section
variable {s t : State}

theorem AttachCase.untouched (h : AttachCase s t) : AttachUntouched s t := by
  cases h with
  | bindBus ho _ _ ht | notFound ho _ _ ht | bindStream ho _ ht =>
    subst ht
    constructor <;> simp [SameHost, ho]
  | probe _ _ ht | wait ht =>
    subst ht
    constructor <;> simp [SameHost]

/-- Only the probe of ATTACH_BUS issues a bus request (R105). -/
theorem AttachCase.busReq_eq_or (h : AttachCase s t) (ho : s.op = .attachStream) :
    t.busReq = s.busReq ∨ t.busReq = .none := by
  cases h with
  | probe hop _ _ => simp [ho] at hop
  | bindBus _ _ _ ht | notFound _ _ _ ht | bindStream _ _ ht => exact .inr (ht ▸ rfl)
  | wait ht => exact .inl (ht ▸ rfl)

/-- An attach moves by its acceptance or by one of the Engine's steps (R80, R101, R105). -/
theorem exec_attach_next {i : Instr} (hi : i = .attachBus ∨ i = .attachStream) (h : exec i s = .next t) :
    t = accept i s ∨ (s.op = i ∧ AttachCase s t) := by
  rcases exec_next h with ⟨_, _, ht⟩ | ⟨_, hd, _⟩ | ⟨_, ho, rfl, he⟩ | ⟨_, ho, rfl, he⟩ | ⟨_, _, hd, _⟩
  · exact .inl ht
  · simp [hd] at hi
  · exact .inr ⟨ho, attachBusEngine_cases ho he⟩
  · exact .inr ⟨ho, attachStreamEngine_cases ho he⟩
  · simp [hd] at hi

end

/-- Settles O13: acceptance and each Engine step keep what `AttachUntouched` names; the binding and the bus request are
those of the command in flight. -/
theorem attachFrame : Obligations.AttachFrame := by
  intro i s t hi h
  have hmove := exec_attach_next hi h
  have hu : AttachUntouched s t := hmove.elim (fun ht => ht ▸ accept_untouched i s) fun hc => hc.2.untouched
  refine ⟨hu.fields, hu.valid, hu.sra, hu.sraL, hu.disc, hu.n, hu.rxq, fun _ => by rw [hu.buf], hu.host, ?_⟩
  rcases hmove with rfl | ⟨rfl, hc⟩
  · exact ⟨rfl, .inl rfl, fun _ => .inl rfl⟩
  · refine ⟨hc.keepsOptions.op, ?_, hc.busReq_eq_or⟩
    exact hc.transport_eq_or.imp_right fun ⟨_, _, _, hb⟩ => hb.imp_left fun ⟨ho, _, _, ht⟩ => ⟨ho, ht⟩

theorem engineStep_running {i : Instr} {p : Phase} {s : State} (h : Running i p s) : engineStep s = exec i s := by
  obtain ⟨hb, ho, _⟩ := h
  rw [engineStep_busy hb, ho]

/-- Settles O14: the probe waits for the answer, and the step after it completes with the answer's code and binding. -/
theorem attachBusRunsToCompletion : Obligations.AttachBusRunsToCompletion := by
  intro s r hb hr
  have hdispatch : Running .attachBus .dispatch (accept .attachBus s) := ⟨rfl, rfl, rfl⟩
  have hprobe : engineStep (accept .attachBus s) = .next (attachBusDispatch (accept .attachBus s)) :=
    (engineStep_running hdispatch).trans (exec_attachBus_dispatch hdispatch)
  have hanswer : busTarget r (attachBusDispatch (accept .attachBus s)) =
      { attachBusDispatch (accept .attachBus s) with busAns := some r } :=
    (busTarget_probe rfl rfl).trans (if_pos hr)
  have hwait : Running .attachBus .probeWait
      { attachBusDispatch (accept .attachBus s) with busAns := some r } := ⟨rfl, rfl, rfl⟩
  have hstep := (congrArg engineStep hanswer).trans (engineStep_running hwait)
  rcases hr with rfl | rfl
  · exact ⟨_, _, _, exec_attachBus_idle hb, hprobe, hstep.trans (exec_attachBus_ack hwait rfl),
      rfl, rfl, rfl, rfl, rfl, rfl, rfl⟩
  · exact ⟨_, _, _, exec_attachBus_idle hb, hprobe, hstep.trans (exec_attachBus_nack hwait rfl),
      rfl, rfl, rfl, rfl, rfl, rfl, rfl⟩

end Sys2Proof.Machine
end

section
/-! PROOFS. The Engine's steps of a DECODE on the two paths, as exact next states (R121-R137), and its frame. -/

namespace Sys2Proof.Machine

section
variable {s : State}

/-- A DECODE that completes with an error leaves no Reading (R35). -/
theorem finishWith_eq_decodeFailed (ho : s.op = .decode) {code : ResultCode} (hc : code ≠ .ok) :
    finishWith code s = decodeFailed code s := by
  rw [finishWith, finishCompletesTheOperation, if_pos ho, if_neg hc]

theorem exec_decode_dispatch (h : Running .decode .dispatch s) : exec .decode s = .next (decodeDispatch s) := by
  obtain ⟨hb, ho, hp⟩ := h
  simp [exec_decode_running hb ho, decodeEngine, hp]

theorem exec_decode_busWait (h : Running .decode .busWait s) : exec .decode s = .next (decodeBusAnswered s) := by
  obtain ⟨hb, ho, hp⟩ := h
  simp [exec_decode_running hb ho, decodeEngine, hp]

theorem exec_decode_scan (h : Running .decode .scan s) : exec .decode s = .next (decodeScan s) := by
  obtain ⟨hb, ho, hp⟩ := h
  simp [exec_decode_running hb ho, decodeEngine, hp]

theorem exec_decode_check (h : Running .decode .check s) : exec .decode s = .next (decodeCheck s) := by
  obtain ⟨hb, ho, hp⟩ := h
  simp [exec_decode_running hb ho, decodeEngine, hp]

/-! DISPATCH (R121, R122, R130). -/

theorem decodeDispatch_unbound (ho : s.op = .decode) (hb : s.transport = .unbound) :
    decodeDispatch s = decodeFailed .transportError s := by
  simp [decodeDispatch, hb, finishWith_eq_decodeFailed ho]

theorem decodeDispatch_bus (hb : s.transport = .bus) :
    decodeDispatch s = { s with busReq := .read Config.busAddr 32, busAns := none, phase := .busWait } := by
  simp [decodeDispatch, hb, busRead, Config.busReadLen, toPhase]

theorem decodeDispatch_stream_empty (ho : s.op = .decode) (hb : s.transport = .stream) (hq : s.rxq = []) :
    decodeDispatch s = decodeFailed .noData s := by
  simp [decodeDispatch, hb, streamCount, hq, finishWith_eq_decodeFailed ho]

theorem decodeDispatch_stream (hb : s.transport = .stream) (hq : s.rxq ≠ []) :
    decodeDispatch s = { s with phase := .scan } := by
  simp [decodeDispatch, hb, streamCount, hq, toPhase]

/-! BUS_WAIT (R123). -/

theorem exec_decode_busData (h : Running .decode .busWait s) {d : Vector Byte 32} (ha : s.busAns = some (.data d)) :
    exec .decode s = .next { s with buf := s.buf.writeBytes 0 d.toList, n := 32, phase := .check } := by
  simp [exec_decode_busWait h, decodeBusAnswered, ha, loadAnswer, Config.busReadLen, toPhase]

theorem exec_decode_busFail (h : Running .decode .busWait s) (ha : s.busAns = some .fail) :
    exec .decode s = .next (decodeFailed .transportError s) := by
  have ⟨_, ho, _⟩ := h
  simp [exec_decode_busWait h, decodeBusAnswered, ha, finishWith_eq_decodeFailed ho]

/-! SCAN (R132-R134). -/

theorem decodeScan_empty (ho : s.op = .decode) (hq : s.rxq = []) :
    decodeScan s = if s.sraL = false then decodeFailed .framingError s else { s with phase := .fill } := by
  simp [decodeScan, streamPeek, hq, exhausted, finishWith_eq_decodeFailed ho, toPhase]

/-- The tests of a SCAN step on a head byte, in their order: marker, bound, discard (R132, R133). -/
theorem decodeScan_head (ho : s.op = .decode) {b : Byte} {rest : List Byte} (hq : s.rxq = b :: rest) :
    decodeScan s =
      if b = 0x42 then { s with phase := .fill }
      else if s.disc = 32 then decodeFailed .framingError s
      else { s with rxq := rest, disc := s.disc + 1 } := by
  simp [decodeScan, streamPeek, hq, Config.hdr0, Config.scanBound, finishWith_eq_decodeFailed ho, discardHead,
    streamPop, toPhase]

/-! FILL (R135-R137). -/

/-- The phase of a fill that has stored `n` bytes: CHECK at 32 (R135). -/
def fillPhase (n : Nat) : Phase :=
  if n = 32 then .check else .fill

theorem exec_decode_store (h : Running .decode .fill s) (hn : s.n < 32) {b : Byte} {rest : List Byte}
    (hq : s.rxq = b :: rest) :
    exec .decode s =
      .next { s with rxq := rest, buf := s.buf.write s.n b, n := s.n + 1, phase := fillPhase (s.n + 1) } := by
  obtain ⟨hb, ho, hp⟩ := h
  have hstore : decodeFill s = .next (fillNext (storeHead b s)) := by
    simp [decodeFill, streamPeek, hq, Config.frameLen, hn]
  rw [exec_decode_running hb ho]
  simp [decodeEngine, hp, hstore, fillNext_eq, fillPhase, toPhase, storeHead, streamPop, hq]

end

/-- Settles O15, by the binding. -/
theorem decodeDispatchStep : Obligations.DecodeDispatchStep := by
  intro s h
  have ⟨_, ho, _⟩ := h
  rw [exec_decode_dispatch h]
  split
  · next hb => rw [decodeDispatch_unbound ho hb]
  · next hb => rw [decodeDispatch_bus hb]
  · next hb =>
    split_ifs with hq
    · rw [decodeDispatch_stream_empty ho hb hq]
    · rw [decodeDispatch_stream hb hq]

/-- Settles O16; the block write at index 0 puts byte i of the answer at index i. -/
theorem busReadAnswerStep : Obligations.BusReadAnswerStep := by
  refine ⟨fun s d h hwf ha => ⟨_, exec_decode_busData h ha, fun i => ?_⟩, fun s => exec_decode_busFail⟩
  simpa using Memory.read_writeBytes_in hwf (bs := d.toList) (i := 0) (by simp) (k := i) (by simp)

/-- Settles O18, by the head of the queue. -/
theorem scanStep : Obligations.ScanStep := by
  intro s h
  have ⟨_, ho, _⟩ := h
  rw [exec_decode_scan h]
  split
  · next hq => rw [decodeScan_empty ho hq]
  · next hq => rw [decodeScan_head ho hq]

/-- Settles O19, by the write at index n. -/
theorem fillStep : Obligations.FillStep :=
  fun s b _ h hwf hn hq =>
    ⟨_, exec_decode_store h hn hq, Memory.read_write_self hwf s.n b, fun _ ha => Memory.read_write_ne s.buf b ha⟩

/-- Settles O21; the guard of `endRead` is R136's. -/
theorem endReadIsTheShortTransfer : Obligations.EndReadIsTheShortTransfer := by
  refine ⟨fun s ho hp hn hq => ?_, fun s hne => ?_⟩
  · have hshort : endRead s = shortTransfer s := if_pos ⟨hp, hn, by simp [streamCount, hq]⟩
    rw [hshort, ← finishWith_eq_decodeFailed ho (by simp)]
    rfl
  · rcases endRead_cases s with ⟨hp, hn, hq, _⟩ | hs
    · exact absurd ⟨hp, hn, hq⟩ hne
    · exact hs

/-! The frame of an Engine step. -/

section
variable {s t : State}

theorem DecodeCase.sameHost (h : DecodeCase s t) : SameHost s t := by
  cases h with
  | store _ _ _ _ _ ht =>
    rw [ht, fillNext_eq]
    exact ⟨rfl, rfl, rfl, rfl, rfl⟩
  | unbound _ _ ht | busRequest _ _ ht | noData _ _ _ ht | scanStart _ _ _ ht | busData _ _ _ ht | busFail _ _ ht
  | exhaustedFail _ _ _ ht | exhaustedFill _ _ _ ht | marker _ _ _ ht | bound _ _ ht | discard _ _ _ _ _ _ ht
  | check _ ht | wait ht => exact ht ▸ ⟨rfl, rfl, rfl, rfl, rfl⟩

/-- Only an answer taken from the bus and a stored byte are written to the buffer (R123, R135). -/
theorem DecodeCase.buf_eq_or (h : DecodeCase s t) :
    t.buf = s.buf ∨
    (∃ d, s.phase = .busWait ∧ s.busAns = some (.data d) ∧ t.buf = s.buf.writeBytes 0 d.toList) ∨
    (∃ b, s.phase = .fill ∧ t.buf = s.buf.write s.n b) := by
  cases h with
  | busData d hp ha ht => exact .inr (.inl ⟨d, hp, ha, ht ▸ rfl⟩)
  | store b _ hp _ _ ht =>
    rw [ht, fillNext_eq]
    exact .inr (.inr ⟨b, hp, rfl⟩)
  | unbound _ _ ht | busRequest _ _ ht | noData _ _ _ ht | scanStart _ _ _ ht | busFail _ _ ht
  | exhaustedFail _ _ _ ht | exhaustedFill _ _ _ ht | marker _ _ _ ht | bound _ _ ht | discard _ _ _ _ _ _ ht
  | check _ ht | wait ht => exact .inl (ht ▸ rfl)

/-- Which buffer bytes an Engine step leaves: those outside the block taken from the bus, and other than byte n of a
fill. -/
theorem DecodeCase.read_eq (h : DecodeCase s t) {a : Nat}
    (hbus : s.phase = .busWait → (∃ d, s.busAns = some (.data d)) → 32 ≤ a) (hfill : s.phase = .fill → a ≠ s.n) :
    t.buf.read a = s.buf.read a := by
  rcases h.buf_eq_or with hm | ⟨d, hp, ha, hm⟩ | ⟨b, hp, hm⟩ <;> rw [hm]
  · exact Memory.read_writeBytes_out s.buf d.toList (.inr (by simpa using hbus hp ⟨d, ha⟩))
  · exact Memory.read_write_ne s.buf b (hfill hp)

/-- A DECODE moves by its acceptance or by one of the Engine's steps (R80, R120). -/
theorem exec_decode_next (h : exec .decode s = .next t) :
    (s.busy = false ∧ t = accept .decode (startDecode s)) ∨ (s.busy = true ∧ s.op = .decode ∧ DecodeCase s t) := by
  rcases exec_next h with ⟨_, hd, _⟩ | ⟨hb, _, ht⟩ | ⟨_, _, hi, _⟩ | ⟨_, _, hi, _⟩ | ⟨hb, ho, _, he⟩
  · exact absurd rfl hd
  · exact .inl ⟨hb, ht⟩
  · cases hi
  · cases hi
  · exact .inr ⟨hb, ho, decodeEngine_cases he⟩

end

/-- Settles O35: acceptance clears the buffer, and each Engine step writes only what `DecodeCase.read_eq` allows. -/
theorem decodeFrame : Obligations.DecodeFrame := by
  intro s t h
  rcases exec_decode_next h with ⟨hb, rfl⟩ | ⟨hb, ho, hc⟩
  · simp [hb, SameHost]
  · obtain ⟨hk, htransport⟩ := hc.frame
    have hq : t.rxq = s.rxq ∨ t.rxq = s.rxq.tail := hc.rxq_eq_or.imp_right fun ⟨b, _, hq⟩ => by rw [hq, List.tail_cons]
    refine ⟨htransport, hk.sra, hc.sameHost, hk.op.trans ho, hq, fun _ => hk.sraL, by simp [hb], ?_, ?_, ?_, ?_⟩
    · exact fun _ hp a ha => hc.read_eq (fun _ _ => ha) (by simp [hp])
    · exact fun _ hp hnone a => hc.read_eq (fun _ ⟨d, hd⟩ => absurd hd (hnone d)) (by simp [hp])
    · exact fun _ hp a ha => hc.read_eq (by simp [hp]) (fun _ => ha)
    · exact fun _ hbus hfill a => hc.read_eq (fun hp => absurd hp hbus) (fun hp => absurd hp hfill)

end Sys2Proof.Machine
end

section
/-! PROOFS. Runs of the Engine alone through SCAN and FILL: the two loops, step by step (R132-R135, R139). -/

namespace Sys2Proof.Machine

section
variable {s t u : State}

theorem engineRun_succ_eq_next {k : Nat} :
    engineRun (k + 1) s = .next t ↔ ∃ u, engineStep s = .next u ∧ engineRun k u = .next t := by
  rw [engineRun]
  cases engineStep s <;> simp

/-- A run of the Engine goes on from where a run ends. -/
theorem engineRun_append {j k : Nat} (hst : engineRun j s = .next t) (htu : engineRun k t = .next u) :
    engineRun (j + k) s = .next u := by
  induction j generalizing s with
  | zero =>
    injection hst with hst
    rw [hst, Nat.zero_add, htu]
  | succ j ih =>
    obtain ⟨v, hv, hrun⟩ := engineRun_succ_eq_next.mp hst
    rw [Nat.succ_add]
    exact engineRun_succ_eq_next.mpr ⟨v, hv, ih hrun⟩

/-- What every Engine step keeps, every run of the Engine keeps. -/
theorem engineRun_keeps {P : State → Prop} (hstep : ∀ s t, P s → engineStep s = .next t → P t) {k : Nat} (hs : P s)
    (hrun : engineRun k s = .next t) : P t := by
  induction k generalizing s with
  | zero =>
    injection hrun with hst
    exact hst ▸ hs
  | succ k ih =>
    obtain ⟨v, hv, hrun⟩ := engineRun_succ_eq_next.mp hrun
    exact ih (hstep s v hs hv) hrun

theorem engineRun_one {i : Instr} {p : Phase} (h : Running i p s) (he : exec i s = .next t) :
    engineRun 1 s = .next t := by
  simp [engineRun, engineStep_running h, he]

theorem engineRun_scan (h : Running .decode .scan s) : engineRun 1 s = .next (decodeScan s) :=
  engineRun_one h (exec_decode_scan h)

/-- SCAN discards queued bytes without a marker while the discard counter has room for them (R132). -/
theorem engineRun_discards (h : Running .decode .scan s) {g q : List Byte} (hq : s.rxq = g ++ q)
    (hg : (0x42 : Byte) ∉ g) (hd : s.disc + g.length ≤ 32) :
    engineRun g.length s = .next { s with rxq := q, disc := s.disc + g.length } := by
  induction g generalizing s with
  | nil =>
    obtain rfl : s.rxq = q := hq
    rfl
  | cons b g ih =>
    obtain ⟨hb, hg⟩ := not_or.mp (mt List.mem_cons.mpr hg)
    rw [List.length_cons] at hd
    have ⟨_, ho, _⟩ := h
    have hstep := engineRun_scan h
    rw [decodeScan_head (rest := g ++ q) ho hq, if_neg (Ne.symm hb), if_neg (by omega)] at hstep
    have hrest := engineRun_append hstep (ih h rfl hg (by simp only; omega))
    simpa [Nat.add_assoc, Nat.add_comm 1] using hrest

/-- FILL stores queued bytes from index n on while the buffer has room for them (R135). -/
theorem engineRun_stores (h : Running .decode (fillPhase s.n) s) {F q : List Byte} (hq : s.rxq = F ++ q)
    (hn : s.n + F.length ≤ 32) :
    engineRun F.length s = .next { s with
      rxq := q, buf := s.buf.writeBytes s.n F, n := s.n + F.length, phase := fillPhase (s.n + F.length) } := by
  induction F generalizing s with
  | nil =>
    obtain rfl : s.rxq = q := hq
    have ⟨_, _, hp⟩ := h
    simp [engineRun, Memory.writeBytes, ← hp]
  | cons b F ih =>
    obtain ⟨hb, ho, hp⟩ := h
    rw [List.length_cons] at hn
    have hfill : Running .decode .fill s := ⟨hb, ho, hp.trans (if_neg (by omega))⟩
    have hstep := engineRun_one hfill (exec_decode_store hfill (by omega) hq)
    have hrest := engineRun_append hstep (ih ⟨hb, ho, rfl⟩ rfl (by simp only; omega))
    simpa [Memory.writeBytes, Nat.add_assoc, Nat.add_comm 1] using hrest

/-- A SCAN step leaves SCAN, or it discards a byte, for which the discard counter had room (R132, R133). -/
theorem decodeScan_leaves_or_discards (ho : s.op = .decode) (hd : s.disc ≤ 32) :
    ((decodeScan s).phase ≠ .scan ∧ (decodeScan s).disc = s.disc) ∨
    (∃ rest, s.disc < 32 ∧ decodeScan s = { s with rxq := rest, disc := s.disc + 1 }) := by
  cases hq : s.rxq with
  | nil =>
    rw [decodeScan_empty ho hq]
    split_ifs <;> exact .inl ⟨by simp [decodeFailed, attachCompleted], rfl⟩
  | cons b rest =>
    rw [decodeScan_head ho hq]
    split_ifs with _ hfull
    · exact .inl ⟨by simp, rfl⟩
    · exact .inl ⟨by simp [decodeFailed, attachCompleted], rfl⟩
    · exact .inr ⟨rest, by omega, rfl⟩

/-- Each SCAN step that goes on uses up one of the 32 discards, so SCAN ends in the step after the last (R133). -/
theorem scan_ends {s : State} (h : Running .decode .scan s) (hd : s.disc ≤ 32) :
    ∃ k t, s.disc + k ≤ 33 ∧ engineRun k s = .next t ∧ t.phase ≠ .scan ∧ t.disc ≤ 32 := by
  have ⟨_, ho, _⟩ := h
  have hstep := engineRun_scan h
  rcases decodeScan_leaves_or_discards ho hd with ⟨hp, hdisc⟩ | ⟨rest, hlt, hs⟩
  · exact ⟨1, _, by omega, hstep, hp, by omega⟩
  · rw [hs] at hstep
    obtain ⟨k, t, hk, hrun, ht⟩ := scan_ends (s := { s with rxq := rest, disc := s.disc + 1 }) h hlt
    exact ⟨1 + k, t, by simp only at hk; omega, engineRun_append hstep hrun, ht⟩
termination_by 32 - s.disc

end

/-- Settles O22: the discard counter bounds how often SCAN goes on. -/
theorem scanEndsWithinThirtyThreeSteps : Obligations.ScanEndsWithinThirtyThreeSteps := by
  intro s h hd
  obtain ⟨k, t, hk, hrun, hend⟩ := scan_ends h hd
  exact ⟨k, t, by omega, hrun, hend⟩

end Sys2Proof.Machine
end

section
/-! PROOFS. A valid frame in the buffer, and the runs of a DECODE on the bus and on the stream (R123, R139, R141,
R171). -/

namespace Sys2Proof.Machine

/-! A frame in the buffer. -/

/-- The buffer that holds the frame `F` from index 0 on (R52). -/
def frameBuffer (F : List Byte) : Memory :=
  Memory.cleared.writeBytes 0 F

theorem read_frameBuffer {F : List Byte} (hF : F.length ≤ 32) (i : Nat) : (frameBuffer F).read i = frameByte F i := by
  rw [frameBuffer, frameByte]
  by_cases hi : i < F.length
  · simpa [hi] using Memory.read_writeBytes_in Memory.wf_cleared (i := 0) (by simpa using hF) hi
  · rw [Memory.read_writeBytes_out _ F (by omega), Memory.read_cleared, List.getD_eq_default _ _ (by omega)]

/-- The sum over the buffer is the sum over the frame sent (R52, R163). -/
theorem bufferSum_frameBuffer {F : List Byte} (hF : F.length = 32) : bufferSum (frameBuffer F) = frameSum F := by
  have hbytes : (List.range 30).map (frameBuffer F).read = F.take 30 := by
    refine List.ext_getElem (by simp [hF]) fun i _ hi => ?_
    rw [List.length_take, hF] at hi
    have hlt : i < F.length := by omega
    simp [read_frameBuffer hF.le, frameByte, hlt]
  rw [frameSum, ← hbytes, List.map_map]
  rfl

/-- CHECK accepts a valid frame (R160, R171). -/
theorem verdict_frameBuffer {F : List Byte} (hF : ValidFrame F) : verdict (frameBuffer F) = .ok := by
  obtain ⟨hlen, h0, h1, hsum⟩ := hF
  have hread := read_frameBuffer hlen.le
  have hfield : (checksumField (frameBuffer F)).toNat = pairValue (frameByte F 30) (frameByte F 31) := by
    rw [← hread 30, ← hread 31]
    exact readingOf_unpack (frameBuffer F) 14
  have hheader : headerOK (frameBuffer F) = true := (headerOK_iff _).mpr ⟨(hread 0).trans h0, (hread 1).trans h1⟩
  refine (verdict_ok_iff _).mpr ⟨hheader, BitVec.eq_of_toNat_eq ?_⟩
  rw [checksum_toNat_mod, bufferSum_frameBuffer hlen, hfield, hsum]

/-- The Reading of a frame in the buffer is made of the frame's pairs (R166). -/
theorem unpack_frameBuffer {F : List Byte} (hF : ValidFrame F) (k : Fin 15) :
    ((unpack (frameBuffer F))[k]).toNat = pairValue (frameByte F (2 + 2 * k)) (frameByte F (3 + 2 * k)) := by
  have hread := read_frameBuffer hF.1.le
  rw [← hread, ← hread]
  exact readingOf_unpack (frameBuffer F) k

theorem decodeCheck_frame {s : State} (ho : s.op = .decode) {F : List Byte} (hF : ValidFrame F)
    (hm : s.buf = frameBuffer F) : decodeCheck s = decodeCommitted (unpack (frameBuffer F)) s := by
  rw [decodeCheck_eq, hm, verdict_frameBuffer hF, finishCompletesTheOperation, if_pos ho, if_pos rfl]

/-- A DECODE that has stored the whole frame `F` and has `q` left in the queue. -/
def frameStored (F q : List Byte) (s : State) : State :=
  { s with rxq := q, buf := frameBuffer F, n := 32, phase := .check }

/-- CHECK commits a valid frame's Reading (R160, R176). -/
theorem engineRun_commits {s : State} (hd : Decoding s) {F : List Byte} (hF : ValidFrame F) (q : List Byte) :
    engineRun 1 (frameStored F q s) = .next (decodeCommitted (unpack (frameBuffer F)) (frameStored F q s)) := by
  obtain ⟨hb, ho⟩ := hd
  have hcheck : Running .decode .check (frameStored F q s) := ⟨hb, ho, rfl⟩
  rw [engineRun_one hcheck (exec_decode_check hcheck), decodeCheck_frame (s := frameStored F q s) ho hF rfl]

/-- An answered bus read of a valid frame is committed in two steps (R123, R160). -/
theorem engineRun_busFrame {s : State} (h : Running .decode .busWait s) {d : Vector Byte 32} (hF : ValidFrame d.toList)
    (hm : s.buf = Memory.cleared) (ha : s.busAns = some (.data d)) :
    engineRun 2 s = .next (decodeCommitted (unpack (frameBuffer d.toList)) (frameStored d.toList s.rxq s)) := by
  have hload : exec .decode s = .next (frameStored d.toList s.rxq s) := by
    rw [exec_decode_busData h ha, hm]
    rfl
  have ⟨hb, ho, _⟩ := h
  exact engineRun_append (engineRun_one h hload) (engineRun_commits ⟨hb, ho⟩ hF s.rxq)

/-- SCAN finds the marker that a valid frame begins with, and leaves it to FILL (R132). -/
theorem decodeScan_frame {s : State} (ho : s.op = .decode) {F rest : List Byte} (hF : ValidFrame F)
    (hq : s.rxq = F ++ rest) : decodeScan s = { s with phase := .fill } := by
  obtain ⟨hlen, h0, _⟩ := hF
  cases F with
  | nil => simp at hlen
  | cons b tail =>
    have hb : b = 0x42 := by simpa [frameByte] using h0
    rw [decodeScan_head (rest := tail ++ rest) ho hq, if_pos hb]

/-- A valid frame at the head of the queue in SCAN is committed in 34 steps: one finds the marker, 32 store the frame,
and CHECK commits (R132, R135, R160). -/
theorem engineRun_streamFrame {s : State} (h : Running .decode .scan s) {F rest : List Byte} (hF : ValidFrame F)
    (hq : s.rxq = F ++ rest) (hm : s.buf = Memory.cleared) (hn : s.n = 0) :
    engineRun 34 s = .next (decodeCommitted (unpack (frameBuffer F)) (frameStored F rest s)) := by
  have hmarker := engineRun_scan h
  obtain ⟨hb, ho, _⟩ := h
  have hlen := hF.1
  rw [decodeScan_frame ho hF hq] at hmarker
  have hfill : engineRun 32 { s with phase := .fill } = .next (frameStored F rest s) := by
    have hstores := engineRun_stores (s := { s with phase := .fill }) ⟨hb, ho, by simp [hn, fillPhase]⟩ hq
      (by simp [hn, hlen])
    simpa [hn, hlen, hm, frameStored, frameBuffer, fillPhase] using hstores
  exact engineRun_append (engineRun_append hmarker hfill) (engineRun_commits ⟨hb, ho⟩ hF rest)

theorem running_accept (i : Instr) (s : State) : Running i .dispatch (accept i s) := ⟨rfl, rfl, rfl⟩

/-- Settles O17: the read is answered whole, and CHECK finds the frame in the buffer. -/
theorem busDecodeCommitsValidFrame : Obligations.BusDecodeCommitsValidFrame := by
  intro s d hb htransport hF
  have hdispatch := running_accept .decode (startDecode s)
  have hrequest := (engineStep_running hdispatch).trans (exec_decode_dispatch hdispatch)
  rw [decodeDispatch_bus (s := accept .decode (startDecode s)) htransport] at hrequest
  have hrun := engineRun_busFrame (s := { accept .decode (startDecode s) with
    busReq := .read Config.busAddr 32, busAns := some (.data d), phase := .busWait }) ⟨rfl, rfl, rfl⟩ hF rfl rfl
  exact ⟨_, _, _, exec_decode_idle hb, hrequest, hrun, rfl, rfl, rfl, rfl, rfl, unpack_frameBuffer hF⟩

/-! The stream path from acceptance on. -/

/-- A DECODE accepted in `s` that has discarded `disc` bytes in SCAN and has `q` left in the queue. -/
def scanning (s : State) (disc : Nat) (q : List Byte) : State :=
  { accept .decode (startDecode s) with phase := .scan, disc := disc, rxq := q }

theorem running_scanning (s : State) (disc : Nat) (q : List Byte) : Running .decode .scan (scanning s disc q) :=
  ⟨rfl, rfl, rfl⟩

/-- From a stream with bytes queued, DECODE goes to SCAN and discards up to 32 bytes before any marker. -/
theorem engineRun_to_scanning {s : State} {g q : List Byte} (htransport : s.transport = .stream) (hq : s.rxq = g ++ q)
    (hne : s.rxq ≠ []) (hg : (0x42 : Byte) ∉ g) (hlen : g.length ≤ 32) :
    engineRun (1 + g.length) (accept .decode (startDecode s)) = .next (scanning s g.length q) := by
  have hdispatch := running_accept .decode (startDecode s)
  have hscan : exec .decode (accept .decode (startDecode s)) = .next (scanning s 0 s.rxq) :=
    (exec_decode_dispatch hdispatch).trans (congrArg _ (decodeDispatch_stream htransport hne))
  have hdiscards := engineRun_discards (running_scanning s 0 s.rxq) hq hg (by simpa [scanning] using hlen)
  simpa [scanning] using engineRun_append (engineRun_one hdispatch hscan) hdiscards

/-- Settles O23: the discards, then the frame. -/
theorem resyncFindsTheFrame : Obligations.ResyncFindsTheFrame := by
  intro s g F rest hb htransport hq hlen hg hF
  have hne : s.rxq ≠ [] := fun h0 => by simpa [hq, hF.1] using congrArg List.length h0
  have hscan := engineRun_to_scanning htransport (hq.trans (List.append_assoc g F rest)) hne hg hlen
  have hrun := engineRun_append hscan (engineRun_streamFrame (running_scanning s _ _) hF rfl rfl rfl)
  rw [show 1 + g.length + 34 = 35 + g.length by omega] at hrun
  exact ⟨_, _, exec_decode_idle hb, hrun, rfl, rfl, rfl, rfl, rfl, rfl, htransport, unpack_frameBuffer hF⟩

/-- Settles O24: after 32 discards the next byte meets the bound. -/
theorem resyncStopsAtItsBound : Obligations.ResyncStopsAtItsBound := by
  intro s g b rest hb htransport hq hlen hg hbyte
  have hscan := engineRun_to_scanning htransport hq (by simp [hq]) hg hlen.le
  rw [hlen] at hscan
  have hbound : decodeScan (scanning s 32 (b :: rest)) = decodeFailed .framingError (scanning s 32 (b :: rest)) :=
    (decodeScan_head rfl rfl).trans ((if_neg hbyte).trans (if_pos rfl))
  have hrun := engineRun_append hscan (engineRun_scan (running_scanning s 32 (b :: rest)))
  rw [hbound] at hrun
  exact ⟨_, _, exec_decode_idle hb, hrun, rfl, rfl, rfl, rfl, rfl, rfl, rfl⟩

/-- Settles O25: every byte is discarded, and the next SCAN step finds the queue empty. -/
theorem resyncExhaustion : Obligations.ResyncExhaustion := by
  intro s hb htransport hne hlen hg
  have hscan := engineRun_to_scanning htransport (List.append_nil s.rxq).symm hne hg hlen
  have hrun := engineRun_append hscan (engineRun_scan (running_scanning s s.rxq.length []))
  rw [decodeScan_empty rfl rfl, show 1 + s.rxq.length + 1 = 2 + s.rxq.length by omega] at hrun
  refine ⟨_, _, exec_decode_idle hb, hrun, ?_⟩
  by_cases hs : s.sra = false
  · simp [scanning, hs, decodeFailed, attachCompleted]
  · simp [scanning, hs, Running]

end Sys2Proof.Machine
end

section
/-! PROOFS. Every byte a stream DECODE takes from the queue is counted, as discarded or as stored (R140). -/

namespace Sys2Proof.Machine

section
variable {s t : State}

/-- Off the bus path, an Engine step of a DECODE counts the byte it takes, and else leaves the queue and the sum of the
counters (R132, R135). -/
theorem DecodeCase.counts (h : DecodeCase s t) (hp : s.phase ≠ .busWait) :
    (t.rxq = s.rxq ∧ t.disc + t.n = s.disc + s.n) ∨ (∃ b, s.rxq = b :: t.rxq ∧ t.disc + t.n = s.disc + s.n + 1) := by
  cases h with
  | busData _ hbus _ _ => exact absurd hbus hp
  | discard b rest _ hq _ _ ht =>
    refine .inr ⟨b, ?_, ?_⟩
    · rw [ht, discardHead_rxq, hq, List.tail_cons]
    · rw [ht]
      exact Nat.add_right_comm s.disc 1 s.n
  | store b rest _ hq _ ht =>
    rw [ht, fillNext_eq]
    refine .inr ⟨b, ?_, rfl⟩
    rw [toPhase_rxq, storeHead_rxq, hq, List.tail_cons]
  | unbound _ _ ht | busRequest _ _ ht | noData _ _ _ ht | scanStart _ _ _ ht | busFail _ _ ht
  | exhaustedFail _ _ _ ht | exhaustedFill _ _ _ ht | marker _ _ _ ht | bound _ _ ht
  | check _ ht | wait ht => exact .inl (ht ▸ ⟨rfl, rfl⟩)

/-- On the stream a DECODE never waits for the bus (R121). -/
theorem DecodeCase.phase_ne_busWait (h : DecodeCase s t) (hb : s.transport = .stream) (hp : s.phase ≠ .busWait) :
    t.phase ≠ .busWait := by
  cases h with
  | busRequest _ hbus _ => simp [hb] at hbus
  | store _ _ hfill _ _ ht =>
    rw [ht, fillNext_eq, toPhase_phase]
    split <;> simp [hfill]
  | discard _ _ _ _ _ _ ht | wait ht => exact ht ▸ hp
  | unbound _ _ ht | noData _ _ _ ht | scanStart _ _ _ ht | busData _ _ _ ht | busFail _ _ ht
  | exhaustedFail _ _ _ ht | exhaustedFill _ _ _ ht | marker _ _ _ ht | bound _ _ ht
  | check _ ht => simp [ht, decodeCheck_eq]

theorem shortTransfer_counters (s : State) :
    (shortTransfer s).disc = s.disc ∧ (shortTransfer s).n = s.n := by
  rcases shortTransfer_cases s with ⟨_, hs⟩ | ⟨_, hs⟩ <;> rw [hs] <;> exact ⟨rfl, rfl⟩

/-- Every move but reset, of whichever agent, while a DECODE is in flight off the bus path: only the Engine takes a
byte, and it counts it. -/
theorem MoveCase.counts {e : Event} (h : MoveCase e s t) (hd : Decoding s) (hp : s.phase ≠ .busWait) (hr : e ≠ .reset) :
    (t.rxq = s.rxq ∧ t.disc + t.n = s.disc + s.n) ∨
    (∃ b, e = .append b ∧ t.rxq = s.rxq ++ [b] ∧ t.disc + t.n = s.disc + s.n) ∨
    (∃ b, e = .engine ∧ s.rxq = b :: t.rxq ∧ t.disc + t.n = s.disc + s.n + 1) := by
  obtain ⟨hbusy, hop⟩ := hd
  cases h with
  | decode hen _ _ he => exact ((decodeEngine_cases he).counts hp).imp_right fun ⟨b, hb⟩ => .inr ⟨b, hen, hb⟩
  | append b he ht => exact .inr (.inl ⟨b, he, ht ▸ ⟨rfl, rfl⟩⟩)
  | short _ _ _ _ ht =>
    obtain ⟨hdisc, hn⟩ := shortTransfer_counters s
    exact .inl (ht ▸ ⟨(shortTransfer_frame s).2.2, congrArg₂ (· + ·) hdisc hn⟩)
  | accept _ _ _ _ hb _ _ | acceptDecode _ _ _ hb _ => simp [hbusy] at hb
  | attachBus _ _ ho _ | attachStream _ _ ho _ => simp [hop] at ho
  | reset he _ => exact absurd he hr
  | config _ _ _ ht | hostOnly _ _ _ ht | answer _ _ _ _ ht | nothing _ ht => exact .inl (ht ▸ ⟨rfl, rfl⟩)

/-- BUS_WAIT belongs to the bus (R30, R121). -/
theorem ControlInv.phase_ne_busWait (h : ControlInv s) (hb : s.transport = .stream) : s.phase ≠ .busWait := by
  intro hp
  have hop := h.op
  rw [hp] at hop
  exact absurd (hb.symm.trans hop.2) (by simp)

/-- A stream DECODE that was accepted with the queue `q`: the bytes it has taken are the first of `q`, as many as the
two counters say together (R32, R33, R140). -/
structure TakenAreCounted (q : List Byte) (s : State) : Prop where
  buffer : BufferInv s
  op : s.op = .decode
  transport : s.transport = .stream
  phase : s.phase ≠ .busWait
  taken : ∃ popped : List Byte, q = popped ++ s.rxq ∧ popped.length = s.disc + s.n

theorem takenAreCounted_accept (hb : s.transport = .stream) :
    TakenAreCounted s.rxq (accept .decode (startDecode s)) :=
  ⟨acceptDecode_bufferInv s, rfl, hb, by simp, [], rfl, rfl⟩

theorem TakenAreCounted.decodeCase {q : List Byte} (h : TakenAreCounted q s) (hc : DecodeCase s t) :
    TakenAreCounted q t := by
  obtain ⟨hbuffer, hop, htransport, hphase, popped, hq, hlen⟩ := h
  obtain ⟨hkeeps, hbinding⟩ := hc.frame
  refine ⟨hbuffer.decodeCase hop hc, hkeeps.op.trans hop, hbinding.trans htransport,
    hc.phase_ne_busWait htransport hphase, ?_⟩
  rcases hc.counts hphase with ⟨hrxq, hsum⟩ | ⟨b, hrxq, hsum⟩
  · exact ⟨popped, hrxq ▸ hq, hlen.trans hsum.symm⟩
  · exact ⟨popped ++ [b], by rw [hq, hrxq, List.append_assoc, List.singleton_append],
      by rw [List.length_append, hlen, hsum, List.length_singleton]⟩

theorem TakenAreCounted.engineStep {q : List Byte} (h : TakenAreCounted q s) (he : engineStep s = .next t) :
    TakenAreCounted q t := by
  rcases engineStep_next he with ⟨_, ht⟩ | ⟨hbusy, hx⟩
  · exact ht ▸ h
  · rw [h.op, exec_decode_running hbusy h.op] at hx
    exact h.decodeCase (decodeEngine_cases hx)

end

/-- Settles O26: each move counts what it takes, and along a run of the Engine alone the counts add up. -/
theorem consumedBytesAreCounted : Obligations.ConsumedBytesAreCounted := by
  refine ⟨fun s t hc hd hb hr hs => ?_, fun s s₀ t k hidle hb hx hrun => ?_⟩
  · simpa using (step_next hs).counts (by simpa [Decoding] using hd) (by simpa using hc.phase_ne_busWait hb) hr
  · rw [exec_decode_idle hidle] at hx
    injection hx with hx
    have ht : TakenAreCounted s.rxq t :=
      engineRun_keeps (fun _ _ h he => h.engineStep he) (hx ▸ takenAreCounted_accept hb) hrun
    obtain ⟨popped, hq, hlen⟩ := ht.taken
    exact ⟨popped, hq, hlen, ht.buffer.disc_le, ht.buffer.n_le⟩

end Sys2Proof.Machine
end

section
/-! PROOFS. The marker of a default-path fill: what each update and each move keeps of `MarkerInv` (R132, R135, R162). -/

namespace Sys2Proof.Machine

/-- `MarkerInv` speaks of FILL and CHECK only. -/
theorem markerInv_of_phase {s : State} (hf : s.phase ≠ .fill) (hc : s.phase ≠ .check) : MarkerInv s :=
  ⟨fun hp => absurd hp hf, fun hp => absurd hp (not_or.mpr ⟨hf, hc⟩)⟩

theorem finish_markerInv (code : ResultCode) (f : Reading) (s : State) : MarkerInv (finish code f s) :=
  markerInv_of_phase (by simp) (by simp)

/-- On the degraded path no marker is claimed. -/
theorem markerInv_of_degraded {s : State} (hl : s.sraL = true) : MarkerInv s :=
  ⟨by simp [hl], by simp [hl]⟩

theorem shortTransfer_markerInv (s : State) : MarkerInv (shortTransfer s) := by
  rcases shortTransfer_cases s with ⟨_, hs⟩ | ⟨hl, hs⟩
  · exact hs ▸ finish_markerInv _ _ _
  · exact hs ▸ markerInv_of_degraded hl

theorem AttachCase.markerInv {s t : State} (hc : AttachCase s t) (h : MarkerInv s) : MarkerInv t := by
  cases hc with
  | probe _ _ ht => exact ht ▸ markerInv_of_phase (by simp) (by simp)
  | bindBus _ _ _ ht | notFound _ _ _ ht | bindStream _ _ ht => exact ht ▸ finish_markerInv _ _ _
  | wait ht => exact ht ▸ h

namespace MarkerInv

variable {s : State} (h : MarkerInv s)
include h

theorem take : MarkerInv (takeEvent s) := by
  rw [takeEvent_eq]
  exact { h with }

/-- A byte at the queue's tail leaves its head (R136). -/
theorem append (b : Byte) : MarkerInv (streamAppend b s) :=
  { h with at_head := fun hp hl hn => by simp [streamAppend, h.at_head hp hl hn] }

/-- The first byte stored is the marker at the queue's head; every later one leaves byte 0 (R135). -/
theorem read_zero_after_store (hm : s.buf.wf = true) (hp : s.phase = .fill) (hb : s.transport = .stream)
    (hl : s.sraL = false) {b : Byte} {rest : List Byte} (hq : s.rxq = b :: rest) :
    (s.buf.write s.n b).read 0 = 0x42 := by
  rcases Nat.eq_zero_or_pos s.n with hn | hn
  · have hhead : b = 0x42 := by simpa [hq] using h.at_head hp hl hn
    rw [hn, Memory.read_write_self hm, hhead]
  · rw [Memory.read_write_ne s.buf b hn.ne, h.stored (.inl hp) hb hl hn]

theorem store (hm : s.buf.wf = true) (hp : s.phase = .fill) {b : Byte} {rest : List Byte} (hq : s.rxq = b :: rest) :
    MarkerInv (fillNext (storeHead b s)) := by
  rw [fillNext_eq]
  exact {
    at_head := fun _ _ hn => absurd hn (Nat.succ_ne_zero s.n)
    stored := fun _ hb hl _ => h.read_zero_after_store hm hp hb hl hq }

end MarkerInv

namespace Inv

variable {s t : State} (h : Inv s)
include h

theorem take : Inv (takeEvent s) :=
  ⟨h.control.take, h.buffer.take, h.reading.take, h.marker.take⟩

/-- SCAN leaves to FILL with nothing stored and the marker still at the queue's head (R132). -/
theorem markerInv_fill {rest : List Byte} (hp : s.phase = .scan) (hq : s.rxq = Config.hdr0 :: rest) :
    MarkerInv (toPhase .fill s) where
  at_head := fun _ _ _ => by simp [hq, Config.hdr0]
  stored := fun _ _ _ hn => absurd (h.buffer.scan_empty hp) hn.ne'

/-- A buffer taken from the bus is none of the stream's (R121, R123). -/
theorem markerInv_busData (hp : s.phase = .busWait) (d : Vector Byte 32) :
    MarkerInv (toPhase .check (loadAnswer d s)) := by
  have hop := h.control.op
  rw [hp] at hop
  exact ⟨by simp, by simp [hop.2]⟩

theorem markerInv_decodeCase (hc : DecodeCase s t) : MarkerInv t := by
  cases hc with
  | busRequest _ _ ht | scanStart _ _ _ ht => exact ht ▸ markerInv_of_phase (by simp) (by simp)
  | busData d hp _ ht => exact ht ▸ h.markerInv_busData hp d
  | exhaustedFill _ _ hl ht => exact ht ▸ markerInv_of_degraded hl
  | marker _ hp hq ht => exact ht ▸ h.markerInv_fill hp hq
  | discard b _ hp _ _ _ ht =>
    have hphase : (discardHead s).phase = .scan := hp
    exact ht ▸ markerInv_of_phase (by simp [hphase]) (by simp [hphase])
  | store _ _ hp hq _ ht => exact ht ▸ h.marker.store h.buffer.wf hp hq
  | check _ ht => exact ht ▸ finish_markerInv _ _ _
  | wait ht => exact ht ▸ h.marker
  | unbound _ _ ht | noData _ _ _ ht | busFail _ _ ht | exhaustedFail _ _ _ ht | bound _ _ ht =>
    exact ht ▸ finish_markerInv _ _ _

theorem markerInv_moveCase {e : Event} (hc : MoveCase e s t) : MarkerInv t := by
  cases hc with
  | accept _ _ _ _ _ _ ht | acceptDecode _ _ _ _ ht => exact ht ▸ markerInv_of_phase (by simp) (by simp)
  | config _ _ _ ht | hostOnly _ _ _ ht | answer _ _ _ _ ht => exact ht ▸ { h.marker with }
  | attachBus _ _ ho he => exact (attachBusEngine_cases ho he).markerInv h.marker
  | attachStream _ _ ho he => exact (attachStreamEngine_cases ho he).markerInv h.marker
  | decode _ _ _ he => exact h.markerInv_decodeCase (decodeEngine_cases he)
  | append b _ ht => exact ht ▸ h.marker.append b
  | short _ _ _ _ ht => exact ht ▸ shortTransfer_markerInv s
  | reset _ ht => exact ht ▸ fbsReset_markerInv s
  | nothing _ ht => exact ht ▸ h.marker

end Inv

/-- Settles O58: each move of each agent keeps `MarkerInv`. A fill that starts has the marker at the queue's head, and its
first stored byte is that head. -/
theorem stepKeepsMarkerInv : Obligations.StepKeepsMarkerInv :=
  fun _ _ h hs => h.take.markerInv_moveCase (step_next hs)

end Sys2Proof.Machine
end

section
/-! PROOFS. Validation: the header, the accumulator, the unpacker, and the verdict of CHECK (R160-R172). -/

namespace Sys2Proof.Machine

/-- Settles O27: the comparison of two bytes as 8-bit values is that of their numbers. -/
theorem headerIsAnExactMatch : Obligations.HeaderIsAnExactMatch := by
  intro m
  rw [headerOK_iff, ← BitVec.toNat_inj, ← BitVec.toNat_inj]
  rfl

/-- Settles O28, by the running sum of the accumulator and 255 as the most a byte can add. -/
theorem checksumIsTheSumModulo : Obligations.ChecksumIsTheSumModulo :=
  fun m => ⟨checksum_toNat_mod m, bufferSum_le m⟩

/-- The accumulator run from 0 is the exact sum modulo 2^16 (R164(d)). -/
theorem sumBytes_toNat (bs : List Byte) : (sumBytes bs).toNat = (bs.map BitVec.toNat).sum % 65536 := by
  simpa [sumBytes] using foldl_accumulate_toNat bs 0x0000#16

/-- Settles O29: one addition is the accumulator run over one byte, and an exact sum does not depend on the order. -/
theorem accumulatorWrapsInAnyOrder : Obligations.AccumulatorWrapsInAnyOrder := by
  refine ⟨fun acc b => by simpa using foldl_accumulate_toNat [b] acc, fun l₁ l₂ hperm => ?_⟩
  apply BitVec.eq_of_toNat_eq
  rw [sumBytes_toNat, sumBytes_toNat, (hperm.map _).sum_eq]

/-- Settles O30, field by field. -/
theorem unpackIsBigEndian : Obligations.UnpackIsBigEndian :=
  ⟨readingOf_unpack, bigEndian_toNat 0x01 0x2C⟩

/-! The verdict, in the terms of R171 and R172. -/

theorem checksumField_toNat (m : Memory) : (checksumField m).toNat = pairValue (m.read 30) (m.read 31) :=
  readingOf_unpack m 14

/-- The checksum is right exactly when the pair at 30-31 is the sum of bytes 0..29 modulo 2^16 (R168). -/
theorem checksum_eq_field_iff (m : Memory) :
    checksum m = checksumField m ↔ pairValue (m.read 30) (m.read 31) = bufferSum m % 65536 := by
  rw [← BitVec.toNat_inj, checksum_toNat_mod, checksumField_toNat, eq_comm]

theorem verdict_wrong_header {m : Memory} (h : headerOK m ≠ true) : verdict m = .invalidHeader := by
  simp [verdict, h]

theorem verdict_wrong_checksum {m : Memory} (h : headerOK m = true) (hc : checksum m ≠ checksumField m) :
    verdict m = .checksumMismatch := by
  simp [verdict, h, hc]

section
variable {s : State} (h : Running .decode .check s)
include h

theorem exec_check_ok (hv : verdict s.buf = .ok) :
    exec .decode s = .next (decodeCommitted (unpack s.buf) s) := by
  have ⟨_, ho, _⟩ := h
  rw [exec_decode_check h, decodeCheck_eq, hv, finishCompletesTheOperation, if_pos ho, if_pos rfl]

theorem exec_check_error {code : ResultCode} (hv : verdict s.buf = code) (hc : code ≠ .ok) :
    exec .decode s = .next (decodeFailed code s) := by
  have ⟨_, ho, _⟩ := h
  rw [exec_decode_check h, decodeCheck_eq, hv, finishCompletesTheOperation, if_pos ho, if_neg hc]

end

/-- Settles O31: the committed Reading is `unpack` of the buffer. -/
theorem checkCommitsValidBuffer : Obligations.CheckCommitsValidBuffer := by
  intro s h h0 h1 hsum
  have hv : verdict s.buf = .ok :=
    (verdict_ok_iff _).mpr ⟨(headerOK_iff _).mpr ⟨h0, h1⟩, (checksum_eq_field_iff _).mpr hsum⟩
  exact ⟨unpack s.buf, exec_check_ok h hv, readingOf_unpack s.buf⟩

/-- Settles O32: the header is judged before the checksum. -/
theorem checkRejectsBadBuffer : Obligations.CheckRejectsBadBuffer := by
  refine fun s h => ⟨fun hheader => ?_, fun h0 h1 hsum => ?_⟩
  · exact exec_check_error h (verdict_wrong_header (mt (headerOK_iff _).mp hheader)) (by simp)
  · have hheader : headerOK s.buf = true := (headerOK_iff _).mpr ⟨h0, h1⟩
    exact exec_check_error h (verdict_wrong_checksum hheader (mt (checksum_eq_field_iff _).mp hsum)) (by simp)

/-! What validation reads of the buffer: bytes 0..31 (R50, R160). -/

section
variable {m m' : Memory} (h : ∀ i, i < 32 → m.read i = m'.read i)
include h

theorem headerOK_congr : headerOK m = headerOK m' := by
  simp [headerOK, h 0, h 1]

theorem checksum_congr : checksum m = checksum m' := by
  have hbytes : (List.range Config.sumLen).map m.read = (List.range Config.sumLen).map m'.read :=
    List.map_congr_left fun i hi => h i ((List.mem_range.mp hi).trans (by decide))
  rw [checksum, checksum, hbytes]

theorem unpack_congr : unpack m = unpack m' := by
  refine Vector.ext fun k hk => ?_
  have hhi : m.read (2 + 2 * k) = m'.read (2 + 2 * k) := h _ (by omega)
  have hlo : m.read (3 + 2 * k) = m'.read (3 + 2 * k) := h _ (by omega)
  simp [unpack_getElem, fieldOf, Config.field0Offset, hhi, hlo]

theorem verdict_congr : verdict m = verdict m' := by
  rw [verdict, verdict, checksumField, checksumField, headerOK_congr h, checksum_congr h, unpack_congr h]

end

/-- Settles O33: the verdict and the Reading are the same over equal bytes, and completion of a DECODE sets RESULT, VALID
and FIELD0..14 from these two. -/
theorem checkReadsOnlyTheBuffer : Obligations.CheckReadsOnlyTheBuffer := by
  intro s₁ s₂ h₁ h₂ hread
  have ⟨_, ho₁, _⟩ := h₁
  have ⟨_, ho₂, _⟩ := h₂
  refine ⟨decodeCheck s₁, decodeCheck s₂, exec_decode_check h₁, exec_decode_check h₂, ?_⟩
  rw [decodeCheck_eq, decodeCheck_eq, verdict_congr hread, unpack_congr hread]
  simp [fieldsAtFinish, ho₁, ho₂]

end Sys2Proof.Machine
end

section
/-! PROOFS. The done_o output: what each move does to BUSY and DONE, and the edges of DONE that follow (R206). -/

namespace Sys2Proof.Machine

/-- BUSY and DONE are the same in both states. -/
structure SameFlags (s t : State) : Prop where
  busy : t.busy = s.busy
  done : t.doneFlag = s.doneFlag

/-- BUSY and DONE are as a completion leaves them (R35). -/
structure CompletedFlags (t : State) : Prop where
  busy : t.busy = false
  done : t.doneFlag = true

theorem finish_completedFlags (code : ResultCode) (f : Reading) (s : State) : CompletedFlags (finish code f s) :=
  ⟨finish_busy .., finish_doneFlag ..⟩

/-- An Engine step of an attach completes it or leaves both flags (R101, R105). -/
theorem AttachCase.flags {s t : State} (h : AttachCase s t) : SameFlags s t ∨ CompletedFlags t := by
  cases h with
  | bindBus _ _ _ ht | notFound _ _ _ ht | bindStream _ _ ht => exact .inr (ht ▸ finish_completedFlags ..)
  | probe _ _ ht | wait ht => exact .inl (ht ▸ ⟨rfl, rfl⟩)

/-- An Engine step of a DECODE completes it or leaves both flags (R121-R135, R160). -/
theorem DecodeCase.flags {s t : State} (h : DecodeCase s t) : SameFlags s t ∨ CompletedFlags t := by
  cases h with
  | unbound _ _ ht | noData _ _ _ ht | busFail _ _ ht | exhaustedFail _ _ _ ht | bound _ _ ht | check _ ht =>
    exact .inr (ht ▸ finish_completedFlags ..)
  | store _ _ _ _ _ ht =>
    rw [ht, fillNext_eq]
    exact .inl ⟨rfl, rfl⟩
  | busRequest _ _ ht | scanStart _ _ _ ht | busData _ _ _ ht | exhaustedFill _ _ _ ht | marker _ _ _ ht
  | discard _ _ _ _ _ _ ht | wait ht => exact .inl (ht ▸ ⟨rfl, rfl⟩)

theorem shortTransfer_flags (s : State) : SameFlags s (shortTransfer s) ∨ CompletedFlags (shortTransfer s) := by
  rcases shortTransfer_cases s with ⟨_, hs⟩ | ⟨_, hs⟩ <;> rw [hs]
  · exact .inr (finish_completedFlags ..)
  · exact .inl ⟨rfl, rfl⟩

/-- What one move can do to BUSY and DONE: nothing, complete the operation in flight (R35), accept a command (R80), or
reset (R37). -/
inductive FlagCase (e : Event) (s t : State) : Prop
  | keep (he : e ≠ .reset) (hf : SameFlags s t)
  | complete (he : e ≠ .reset) (hb : s.busy = true) (hf : CompletedFlags t)
  | accept (he : e = .host) (hb : s.busy = false) (hrun : Running t.op .dispatch t) (hres : t.result = .none)
      (hd : t.doneFlag = false)
  | reset (he : e = .reset) (hb : t.busy = false) (hd : t.doneFlag = false)

namespace FlagCase

variable {e : Event} {s t : State}

theorem of_flags (he : e ≠ .reset) (hb : s.busy = true) (h : SameFlags s t ∨ CompletedFlags t) : FlagCase e s t :=
  h.elim (.keep he) (.complete he hb)

theorem of_accept (he : e = .host) (hb : s.busy = false) (i : Instr) (u : State) : FlagCase e s (Machine.accept i u) :=
  .accept he hb ⟨rfl, rfl, rfl⟩ rfl rfl

end FlagCase

/-- The inversion of a move in BUSY and DONE; that the operation a short transfer completes is in flight is `ControlInv`. -/
theorem MoveCase.flagCase {e : Event} {s t : State} (h : MoveCase e s t) (hc : ControlInv s) : FlagCase e s t := by
  cases h with
  | accept _ _ he _ hb _ ht | acceptDecode _ he _ hb ht => exact ht ▸ .of_accept he hb ..
  | attachBus he hb ho hstep => exact .of_flags (by simp [he]) hb (attachBusEngine_cases ho hstep).flags
  | attachStream he hb ho hstep => exact .of_flags (by simp [he]) hb (attachStreamEngine_cases ho hstep).flags
  | decode he hb _ hstep => exact .of_flags (by simp [he]) hb (decodeEngine_cases hstep).flags
  | short he hp _ _ ht => exact ht ▸ .of_flags (by simp [he]) (hc.decoding_of_fill hp).1 (shortTransfer_flags s)
  | reset he ht => exact .reset he (ht ▸ rfl) (ht ▸ rfl)
  | nothing he ht => exact .keep he (ht ▸ ⟨rfl, rfl⟩)
  | config _ he _ ht | hostOnly _ _ he ht | append _ he ht | answer _ he _ _ ht =>
    exact .keep (by simp [he]) (ht ▸ ⟨rfl, rfl⟩)

/-- BUSY and DONE over a whole step: taking the move touches neither. -/
theorem step_flagCase {s t : State} (hc : ControlInv s) (hs : step s = .next t) : FlagCase (nextEvent s) s t := by
  cases (step_next hs).flagCase hc.take with
  | keep he hf => exact .keep he ⟨by simpa using hf.busy, by simpa using hf.done⟩
  | complete he hb hf => exact .complete he (by simpa using hb) hf
  | accept he hb hrun hres hd => exact .accept he (by simpa using hb) hrun hres hd
  | reset he hb hd => exact .reset he hb hd

/-- Settles O53: each edge of DONE is one of the cases of `FlagCase`; DONE is 0 before a completion by `ControlInv`. -/
theorem doneOutputEdges : Obligations.DoneOutputEdges := by
  refine ⟨fun s => (statusWord_done s).symm, fun s t hc hs => ?_⟩
  simp only [doneO]
  cases step_flagCase hc hs with
  | keep he hf =>
    obtain ⟨hbusy, hdone⟩ := hf
    simp +contextual [he, hbusy, hdone]
  | complete he hb hf =>
    obtain ⟨hbusy, hdone⟩ := hf
    have hd : s.doneFlag = false := by simpa [hb] using hc.done_idle
    simp [he, hb, hd, hbusy, hdone]
  | accept he hb hrun hres hd =>
    exact ⟨by simp [hd], by simp [hb], fun _ _ => .inr ⟨he, hb, hrun, hres⟩, fun _ _ => hd, fun _ => hd⟩
  | reset he hb hd => simp [he, hb, hd]

end Sys2Proof.Machine
end

section
/-! PROOFS. An Engine without its answer or its byte waits, and one in DISPATCH, SCAN or CHECK never does (R245). -/

namespace Sys2Proof.Machine

section
variable {s : State}

theorem exec_decode_fill (h : Running .decode .fill s) : exec .decode s = decodeFill s := by
  obtain ⟨hb, ho, hp⟩ := h
  simp [exec_decode_running hb ho, decodeEngine, hp]

theorem exec_attachBus_unanswered (h : Running .attachBus .probeWait s) (ha : s.busAns = none) :
    exec .attachBus s = .next s := by
  obtain ⟨hb, ho, hp⟩ := h
  simp [exec_attachBus_running hb ho, attachBusEngine, hp, attachBusProbed, ha]

theorem exec_decode_unanswered (h : Running .decode .busWait s) (ha : s.busAns = none) :
    exec .decode s = .next s := by
  simp [exec_decode_busWait h, decodeBusAnswered, ha]

theorem exec_decode_fill_empty (h : Running .decode .fill s) (hq : s.rxq = []) : exec .decode s = .next s := by
  simp [exec_decode_fill h, decodeFill, streamPeek, hq]

/-- DISPATCH of a DECODE ends it, asks the bus, or starts SCAN (R121, R122, R130). -/
theorem decodeDispatch_leaves_dispatch (ho : s.op = .decode) : (decodeDispatch s).phase ≠ .dispatch := by
  cases hb : s.transport with
  | unbound => simp [decodeDispatch_unbound ho hb, decodeFailed, attachCompleted]
  | bus => simp [decodeDispatch_bus hb]
  | stream =>
    by_cases hq : s.rxq = []
    · simp [decodeDispatch_stream_empty ho hb hq, decodeFailed, attachCompleted]
    · simp [decodeDispatch_stream hb hq]

/-- Every command leaves DISPATCH with its first Engine step (R101, R105, R121). -/
theorem exec_leaves_dispatch {i : Instr} (h : Running i .dispatch s) :
    ∃ t, exec i s = .next t ∧ t.phase ≠ .dispatch := by
  have ⟨_, ho, _⟩ := h
  cases i with
  | attachBus => exact ⟨_, exec_attachBus_dispatch h, by simp [attachBusDispatch]⟩
  | attachStream => exact ⟨_, exec_attachStream_dispatch h, by simp [attachCompleted]⟩
  | decode => exact ⟨_, exec_decode_dispatch h, decodeDispatch_leaves_dispatch ho⟩

/-- A SCAN step leaves SCAN or counts a discarded byte, whatever the counter is (R132-R134). -/
theorem decodeScan_ne_self (h : Running .decode .scan s) : decodeScan s ≠ s := by
  obtain ⟨_, ho, hp⟩ := h
  cases hq : s.rxq with
  | nil =>
    rw [decodeScan_empty ho hq]
    split_ifs <;> exact ne_of_apply_ne State.phase (by simp [decodeFailed, attachCompleted, hp])
  | cons b rest =>
    rw [decodeScan_head ho hq]
    split_ifs
    · exact ne_of_apply_ne State.phase (by simp [hp])
    · exact ne_of_apply_ne State.phase (by simp [decodeFailed, attachCompleted, hp])
    · exact ne_of_apply_ne State.disc (by simp)

end

/-- Settles O20: the three waits. -/
theorem waitingEngineChangesNothing : Obligations.WaitingEngineChangesNothing :=
  ⟨fun _ => exec_attachBus_unanswered, fun _ => exec_decode_unanswered, fun _ => exec_decode_fill_empty⟩

/-- Settles O45: DISPATCH and CHECK are left, SCAN is left or counts a byte; `ControlInv` says what is in flight. -/
theorem dispatchScanCheckNeverWait : Obligations.DispatchScanCheckNeverWait := by
  intro s hc hp
  have hop := hc.op
  have hbusy : s.busy = true := hc.busy_iff.mpr (by rcases hp with hp | hp | hp <;> simp [hp])
  rcases hp with hp | hp | hp <;> rw [hp] at hop
  · have hrun : Running s.op .dispatch s := ⟨hbusy, rfl, hp⟩
    obtain ⟨t, hstep, hne⟩ := exec_leaves_dispatch hrun
    exact ⟨t, (engineStep_running hrun).trans hstep, fun he => hne (he ▸ hp)⟩
  · have hrun : Running .decode .scan s := ⟨hbusy, hop.1, hp⟩
    exact ⟨_, (engineStep_running hrun).trans (exec_decode_scan hrun), decodeScan_ne_self hrun⟩
  · have hrun : Running .decode .check s := ⟨hbusy, hop.1, hp⟩
    refine ⟨_, (engineStep_running hrun).trans (exec_decode_check hrun), ne_of_apply_ne State.phase ?_⟩
    simp [decodeCheck_eq, hp]

end Sys2Proof.Machine
end

section
/-! PROOFS. Where a move stops with a fault: a CMD write while busy, a host access of another width, and a foreign
removal of queued bytes (R243, R240, R54, R36). -/

namespace Sys2Proof.Machine

section
variable {s : State} {f : Fault}

/-- An idle FBS accepts every command (R80). -/
theorem exec_idle_answers (hb : s.busy = false) (i : Instr) : ∃ t, exec i s = .next t := by
  cases i with
  | attachBus => exact ⟨_, exec_attachBus_idle hb⟩
  | attachStream => exact ⟨_, exec_attachStream_idle hb⟩
  | decode => exact ⟨_, exec_decode_idle hb⟩

theorem commandWrite_idle_answers (hb : s.busy = false) (w : Word) : ∃ t, commandWrite w s = .next t := by
  cases hw : decodeWord w with
  | ok i => exact commandWrite_command hw hb ▸ exec_idle_answers hb i
  | error e => exact ⟨s, by simp [commandWrite, hb, hw]⟩

theorem commandWrite_eq_fault_iff {w : Word} :
    commandWrite w s = .fault f ↔ f = .cmdWhileBusy ∧ s.busy = true := by
  cases hb : s.busy with
  | true => simp [commandWrite_busy hb, eq_comm]
  | false =>
    obtain ⟨t, ht⟩ := commandWrite_idle_answers hb w
    simp [ht]

theorem hostWrite_eq_fault_iff {a : RegAddr} {w : Word} :
    hostWrite a w s = .fault f ↔ f = .cmdWhileBusy ∧ s.busy = true ∧ a = cmdAddr := by
  rw [hostWrite_eq]
  split_ifs with hcmd hconfig
  · simp [commandWrite_eq_fault_iff, hcmd, cmdAddr]
  · simp [hconfig, cmdAddr]
  · exact iff_of_false nofun fun ⟨_, _, ha⟩ => hcmd ha

/-- A line that writes CMD is an access 16 bits wide, a write, at CMD's address (R17, R54). -/
theorem exists_access_eq_hostWr_cmd_iff {h : HostAccess} :
    (∃ w, HostLine.access h = hostWr cmdAddr w) ↔ h.width = 16 ∧ h.write = true ∧ h.addr = cmdAddr := by
  cases h
  simp [hostWr]

theorem hostAccess_eq_fault_iff {h : HostAccess} :
    hostAccess h s = .fault f ↔
      (f = .hostAccessWidth ∧ h.width ≠ 16) ∨
      (f = .cmdWhileBusy ∧ s.busy = true ∧ ∃ w, HostLine.access h = hostWr cmdAddr w) := by
  rw [exists_access_eq_hostWr_cmd_iff, hostAccess]
  split_ifs with hw hwrite
  · simp [hw, eq_comm (b := f)]
  · simp [hostWrite_eq_fault_iff, not_not.mp hw, hwrite]
  · simp [not_not.mp hw, hwrite]

theorem hostStep_eq_fault_iff :
    hostStep s = .fault f ↔
      (f = .hostAccessWidth ∧ ∃ h, s.hostProg[s.hostPc]? = some (.access h) ∧ h.width ≠ 16) ∨
      (f = .cmdWhileBusy ∧ s.busy = true ∧ ∃ w, s.hostProg[s.hostPc]? = some (hostWr cmdAddr w)) := by
  cases hl : s.hostProg[s.hostPc]? with
  | none => simp [hostStep, hl]
  | some line =>
    cases line with
    | access h =>
      rw [hostStep_access hl, hostAccess_eq_fault_iff]
      simp
    | ifGoto c line => simp [hostStep, hl, hostWr]

theorem foreignPop_eq_fault_iff : foreignPop s = .fault f ↔ f = .foreignStreamConsumer ∧ s.rxq ≠ [] := by
  by_cases hq : s.rxq = []
  · simp [foreignPop, streamCount, hq]
  · simp [foreignPop, streamCount, hq, eq_comm (b := f)]

/-- Only the Host's move and a foreign removal can fault: the Engine always answers while FILL has room. -/
theorem agentStep_eq_fault_iff {e : Event} (hn : s.phase = .fill → s.n < 32) :
    agentStep e s = .fault f ↔
      (e = .host ∧ hostStep s = .fault f) ∨ (e = .foreignPop ∧ foreignPop s = .fault f) := by
  cases e with
  | host | foreignPop => simp [agentStep]
  | append | endRead | busAnswer | reset => simp [agentStep]
  | engine =>
    obtain ⟨t, ht⟩ := engineStep_answers hn
    simp [agentStep, ht]

end

/-- Settles O43: of the moves that can fault, each faults as listed; `BufferInv` gives FILL room, so `bufferIndex` is
never raised. -/
theorem faultsExactlyAsListed : Obligations.FaultsExactlyAsListed := by
  intro s f h
  rw [step, agentStep_eq_fault_iff h.take.fill_room, hostStep_eq_fault_iff, foreignPop_eq_fault_iff]
  simp only [takeEvent_hostProg, takeEvent_hostPc, takeEvent_busy, takeEvent_rxq]
  simp only [and_or_left, or_assoc, and_left_comm]

end Sys2Proof.Machine
end
